-- ==== Sys2Proof/Word.lean ====
section
/-! DEFINITION. The bit-vector types of the engine (00_scope.md rules R8, R10, R11). -/

namespace Sys2Proof

/-- A general register's value: `XLEN` = 32 bits, two's complement (rules R8, R20; decision D1). -/
abbrev Word := BitVec 32

/-- A memory or instruction word: 16 bits (rules R8, R50, R70). -/
abbrev MemWord := BitVec 16

/-- A word address, and the program counter: 12 bits, 0 to 4095 (rules R8, R25, R50). -/
abbrev Addr := BitVec 12

/-- A register field: a 4-bit index, every value of which names a register (rules R20, R76). -/
abbrev RegIdx := BitVec 4

/-- An 8-bit operand field `k8`: an immediate or a short address (rule R72). -/
abbrev Field8 := BitVec 8

/-- The opcode field, bits 15 to 12 of a word (rule R71). -/
abbrev OpField := BitVec 4

end Sys2Proof
end

