-- ==== Sys2Proof/Config.lean ====
section
/-! DEFINITION. The implementation parameters of rule R8 at the values this hardware takes.
The spec leaves no value open after an instruction (93_implementation_defined.md gives no entry the
treatment "any value"), so the configuration holds no free value. -/

namespace Sys2Proof

/-- `NREG`, the number of general registers (rule R8). -/
abbrev Config.numRegs : Nat := 16

/-- `MEMSIZE`, the number of memory words (rule R8). -/
abbrev Config.memWords : Nat := 4096

/-- The highest word address, at which a sequential advance faults (rule R106). -/
abbrev Config.lastPc : Addr := 4095#12

/-- What a memory word that nothing has written reads as: 0 (rules R38, R61; decision D5, log 8). -/
abbrev Config.unwrittenWord : MemWord := 0#16

end Sys2Proof
end

