-- ==== Sys2Proof/Syntax.lean ====
section
/-! DEFINITION. The decoded instructions of rule R80, and the source-level instructions of rule R91. -/

namespace Sys2Proof

/-- The decoded instruction of rule R80: "a tagged union over the opcode set, each variant carrying
only the operand fields relevant to it". `unknown` is the sentinel of rule R78; it carries nothing
(rule R171), so it stands for all six reserved rows of the opcode table (log 13). -/
inductive Instr where
  /-- `LOAD Rd, Imm` (rule R120). -/
  | load (rd : RegIdx) (imm : Field8)
  /-- `STORE Rs, Addr` (rule R121). -/
  | store (rs : RegIdx) (addr : Field8)
  /-- `ADD Rd, Rs1, Rs2` (rule R130). -/
  | add (rd rs1 rs2 : RegIdx)
  /-- `SUB Rd, Rs1, Rs2` (rule R131). -/
  | sub (rd rs1 rs2 : RegIdx)
  /-- `MUL Rd, Rs1, Rs2` (rule R132). -/
  | mul (rd rs1 rs2 : RegIdx)
  /-- `DIV Rd, Rs1, Rs2` (rule R133). -/
  | div (rd rs1 rs2 : RegIdx)
  /-- `JMP Addr` (rule R150). -/
  | jmp (addr : Addr)
  /-- `JMPZ Rc, Addr` (rule R151). -/
  | jmpz (rc : RegIdx) (addr : Field8)
  /-- `JMPNZ Rc, Addr` (rule R152). -/
  | jmpnz (rc : RegIdx) (addr : Field8)
  /-- `HALT` (rule R170). -/
  | halt
  /-- The unknown-opcode sentinel (rules R78, R171). -/
  | unknown
  deriving DecidableEq, Repr

/-- The ten mnemonics of the assembler's source syntax (rule R91). -/
inductive Mnemonic where
  | load | store | add | sub | mul | div | jmp | jmpz | jmpnz | halt
  deriving DecidableEq, Repr

/-- An instruction as the assembler has it before the range checks: a mnemonic and the values its
operand tokens resolved to, in source order (rules R93, R94). -/
structure RawInstr where
  /-- The mnemonic token. -/
  op : Mnemonic
  /-- The resolved operands, left to right. -/
  operands : List Nat
  deriving DecidableEq, Repr

end Sys2Proof
end

