-- ==== Sys2Proof/WellFormed.lean ====
section
/-! DEFINITION. What is well formed: a decoded instruction that has a word, and a source-level
instruction whose operands fit their fields. -/

namespace Sys2Proof

/-- A decoded instruction has an encoding unless it is the sentinel: "`UNKNOWN` has no encoding"
(rule R82). The operand fields need no check, since "every bit pattern of the used fields is legal"
(rule R79) and each field's type is its width. -/
def Instr.wellFormed : Instr → Bool
  | .load _ _ => true
  | .store _ _ => true
  | .add _ _ _ => true
  | .sub _ _ _ => true
  | .mul _ _ _ => true
  | .div _ _ _ => true
  | .jmp _ => true
  | .jmpz _ _ => true
  | .jmpnz _ _ => true
  | .halt => true
  | .unknown => false

/-- The largest value of each operand field, in operand order (rule R95). The length of the list is
the number of operands the mnemonic takes (rule R91). -/
def Mnemonic.limits : Mnemonic → List Nat
  | .load => [15, 255]
  | .store => [15, 255]
  | .add => [15, 15, 15]
  | .sub => [15, 15, 15]
  | .mul => [15, 15, 15]
  | .div => [15, 15, 15]
  | .jmp => [4095]
  | .jmpz => [15, 255]
  | .jmpnz => [15, 255]
  | .halt => []

/-- The mnemonic has as many operands as rule R91 gives it. -/
def RawInstr.countOk (r : RawInstr) : Bool :=
  r.operands.length == r.op.limits.length

/-- Every operand is at most its field's limit (rule R95). -/
def RawInstr.rangesOk (r : RawInstr) : Bool :=
  (r.operands.zip r.op.limits).all fun p => decide (p.1 ≤ p.2)

/-- A source-level instruction that can be encoded: the operand count (rule R96) and every operand's
range (rule R95). -/
def RawInstr.wellFormed (r : RawInstr) : Bool :=
  r.countOk && r.rangesOk

end Sys2Proof
end

