-- ==== Sys2Proof/Decode.lean ====
section
/-! DEFINITION. The instruction codec (30_encoding.md): fields, decode (rule R80), encode (rule R82). -/

namespace Sys2Proof

/-- `op = w[15:12]` (rule R71). -/
def opField (w : MemWord) : OpField := w.extractLsb' 12 4

/-- `w[11:8]`: the field `r` of format RI and `rd` of format RRR (rules R72, R73). -/
def fieldA (w : MemWord) : RegIdx := w.extractLsb' 8 4

/-- `w[7:4]`: the field `rs1` of format RRR (rule R73). -/
def fieldB (w : MemWord) : RegIdx := w.extractLsb' 4 4

/-- `w[3:0]`: the field `rs2` of format RRR (rule R73). -/
def fieldC (w : MemWord) : RegIdx := w.extractLsb' 0 4

/-- `w[7:0]`: the field `k8` of format RI (rule R72). -/
def fieldK8 (w : MemWord) : Field8 := w.extractLsb' 0 8

/-- `w[11:0]`: the field `addr12` of format A12 (rule R74). -/
def fieldA12 (w : MemWord) : Addr := w.extractLsb' 0 12

/-- The decode function of rule R80: pure and total (rule R81). The last arm is reached by exactly
the six reserved opcodes 0000, 0111, 1011, 1100, 1101 and 1110 (rule R78). -/
def decode (w : MemWord) : Instr :=
  match opField w with
  | 0b0001#4 => .load (fieldA w) (fieldK8 w)
  | 0b0010#4 => .store (fieldA w) (fieldK8 w)
  | 0b0011#4 => .add (fieldA w) (fieldB w) (fieldC w)
  | 0b0100#4 => .sub (fieldA w) (fieldB w) (fieldC w)
  | 0b0101#4 => .mul (fieldA w) (fieldB w) (fieldC w)
  | 0b0110#4 => .div (fieldA w) (fieldB w) (fieldC w)
  | 0b1000#4 => .jmp (fieldA12 w)
  | 0b1001#4 => .jmpz (fieldA w) (fieldK8 w)
  | 0b1010#4 => .jmpnz (fieldA w) (fieldK8 w)
  | 0b1111#4 => .halt
  | _ => .unknown

/-- Format RI: `op : r : k8` (rule R72). -/
def packRI (op : OpField) (r : RegIdx) (k8 : Field8) : MemWord := op ++ r ++ k8

/-- Format RRR: `op : rd : rs1 : rs2` (rule R73). -/
def packRRR (op : OpField) (rd rs1 rs2 : RegIdx) : MemWord := op ++ rd ++ rs1 ++ rs2

/-- Format A12: `op : addr12` (rule R74); format N is the same with a zero field (rule R75). -/
def packA12 (op : OpField) (addr : Addr) : MemWord := op ++ addr

/-- The encode function of rule R82. `UNKNOWN` has no encoding. -/
def encode : Instr → Option MemWord
  | .load rd imm => some (packRI 0b0001#4 rd imm)
  | .store rs addr => some (packRI 0b0010#4 rs addr)
  | .add rd rs1 rs2 => some (packRRR 0b0011#4 rd rs1 rs2)
  | .sub rd rs1 rs2 => some (packRRR 0b0100#4 rd rs1 rs2)
  | .mul rd rs1 rs2 => some (packRRR 0b0101#4 rd rs1 rs2)
  | .div rd rs1 rs2 => some (packRRR 0b0110#4 rd rs1 rs2)
  | .jmp addr => some (packA12 0b1000#4 addr)
  | .jmpz rc addr => some (packRI 0b1001#4 rc addr)
  | .jmpnz rc addr => some (packRI 0b1010#4 rc addr)
  | .halt => some (packA12 0b1111#4 0#12)
  | .unknown => none

/-- The instruction the decoder reads from an instruction whose bits are `w`, the bits above `nbits`
being 0. Every instruction is one 16-bit word (rule R70), so a value that has a bit at or above 16,
or at or above `nbits`, is no instruction's bits. -/
def decodeTableWord (nbits w : Nat) : Option Instr :=
  if nbits ≤ 16 ∧ w < 2 ^ nbits then some (decode (BitVec.ofNat 16 w)) else none

end Sys2Proof
end

