-- ==== Sys2Proof/Machine/State.lean ====
section
/-! DEFINITION. The state of one engine (10_state.md, 20_memory.md), and its value after reset. -/

namespace Sys2Proof.Machine

/-- The fault reasons of rules R28 and R180. A fault never ends the model's run: fault entry is a next
state with status FAULTED(reason) (rules R15, R186; log 3), so `Host.Outcome.fault` is never
answered, and this type is the reason a FAULTED status carries. -/
inductive Fault where
  /-- Raised by the execute stage of UNKNOWN (rule R171). Safe: the spec's own fault. -/
  | unknownOpcode
  /-- Raised by DIV with a zero divisor (rule R133). Safe: the spec's own fault. -/
  | divisionByZero
  /-- Answered by the bounds-checked register accessor to the host; no step raises it (rules R180,
  R214). Safe: the spec's own reason. -/
  | invalidRegister
  /-- Answered by the bounds-checked memory accessor to the host; no step raises it (rules R53, R180,
  R214). Safe: the spec's own reason. -/
  | invalidAddress
  /-- Raised by Advance on a SEQ request at 4095 (rule R106). Safe: the spec's own fault. -/
  | programCounterOverflow
  /-- Raised at the start of a step when the budget is used up (rule R102). Safe: the spec's own
  fault. -/
  | stepBudgetExceeded
  deriving DecidableEq, Repr

/-- Why the model would give an instruction no meaning. -/
inductive Refusal where
  /-- Answered by an arm of `exec` whose instruction has no meaning yet. No arm answers it: every
  instruction has its meaning. Safe: a refused instruction proves nothing. -/
  | notModelled (mnemonic : String)
  deriving DecidableEq, Repr

/-- The execution status: "one of {RUNNING, HALTED, FAULTED(reason)}" (rule R27). -/
inductive Status where
  | running
  | halted
  | faulted (reason : Fault)
  deriving DecidableEq, Repr

/-- The next-PC request that an execute stage returns to Advance (40_cycle.md, rule R106). -/
inductive NextPc where
  /-- Advance to `pc + 1`. -/
  | seq
  /-- Set `pc` to the target, with no increment. -/
  | jump (target : Addr)
  /-- Leave `pc` as it is. -/
  | stop
  deriving DecidableEq, Repr

/-- The memory `M[0..4095]` as pairs of a word address and the word there (rules R50, R51; log 1), in
the canonical form of `Memory.wf`. -/
abbrev Memory := List (Nat × MemWord)

/-- The state of one engine. "Nothing else persists from one step to the next" (10_state.md). -/
structure State where
  /-- The register file `x[0..15]` (rule R20). -/
  regs : Vector Word 16
  /-- The program counter (rule R25). -/
  pc : Addr
  /-- The memory array (rule R50). -/
  mem : Memory
  /-- The execution status (rule R27). -/
  status : Status
  /-- The step budget: none, or an unsigned 64-bit count (rule R29). -/
  budget : Option (BitVec 64)
  /-- The completed-step counter, unbounded (rule R30). -/
  steps : Nat
  deriving DecidableEq, Repr

/-- The machine right after reset: what `New` builds (rules R38, R211, R218) from an empty program and
no budget. The empty program and the absent budget are the model's choice (log 4). -/
def State.reset : State where
  regs := Vector.replicate 16 0#32
  pc := 0#12
  mem := []
  status := .running
  budget := none
  steps := 0

end Sys2Proof.Machine
end

