-- ==== Sys2Proof/Machine/Ops.lean ====
section
/-! DEFINITION. The named operations on memory, registers, status, program counter and step count:
the primitives of rules R13 to R15, the memory accessors, fault entry, Advance and Count. -/

namespace Sys2Proof.Machine

/-! ### Memory (20_memory.md) -/

/-- The word at word address `a`; an address the list does not hold reads as the unwritten word. -/
def Memory.read : Memory → Nat → MemWord
  | [], _ => Config.unwrittenWord
  | (k, v) :: m, a => if k = a then v else Memory.read m a

/-- A cell in front of `m`, left out when it says what an unlisted address reads as anyway. -/
def Memory.put (a : Nat) (v : MemWord) (m : Memory) : Memory :=
  if v = Config.unwrittenWord then m else (a, v) :: m

/-- Write the word `v` at word address `a`, keeping the canonical form. -/
def Memory.write : Memory → Nat → MemWord → Memory
  | [], a, v => Memory.put a v []
  | (k, w) :: m, a, v =>
    if a < k then Memory.put a v ((k, w) :: m)
    else if a = k then Memory.put a v m
    else (k, w) :: Memory.write m a v

/-- The canonical form from address `lo` on: addresses strictly rising, at or above `lo` and inside the
4096 words (rule R50), and no cell that holds the unwritten word. -/
def Memory.wfFrom : Nat → Memory → Bool
  | _, [] => true
  | lo, (k, v) :: m =>
    decide (lo ≤ k) && decide (k < Config.memWords) && decide (v ≠ Config.unwrittenWord)
      && Memory.wfFrom (k + 1) m

/-- The canonical form of a memory (log 1). -/
def Memory.wf (m : Memory) : Bool := Memory.wfFrom 0 m

/-- Copy `words` to the addresses from `a` on (rule R212). -/
def Memory.load : Memory → Nat → List MemWord → Memory
  | m, _, [] => m
  | m, a, w :: ws => Memory.load (Memory.write m a w) (a + 1) ws

/-- `MemRead(a, 1)` (rule R14). -/
def State.readMem (s : State) (a : Addr) : MemWord := Memory.read s.mem a.toNat

/-- `MemWrite(a, 1, v)` (rule R14). -/
def State.writeMem (s : State) (a : Addr) (v : MemWord) : State :=
  { s with mem := Memory.write s.mem a.toNat v }

/-- The fetch of rule R103: the word at `pc`. -/
def fetchWord (s : State) : MemWord := s.readMem s.pc

/-! ### Registers (rules R13, R20, R22) -/

/-- `x[i]`. -/
def State.reg (s : State) (i : RegIdx) : Word := s.regs.get ⟨i.toNat, i.isLt⟩

/-- `x[i] <- v`. No register is hard-wired (rule R22). -/
def State.setReg (s : State) (i : RegIdx) (v : Word) : State :=
  { s with regs := s.regs.set i.toNat v i.isLt }

/-! ### Status, program counter and step count -/

/-- `pc <- t` (rule R13). -/
def State.setPc (s : State) (t : Addr) : State := { s with pc := t }

/-- `status <- HALTED` (rule R170). -/
def State.setHalted (s : State) : State := { s with status := .halted }

/-- Fault entry: "`status <- FAULTED(reason)`, and the step ends. It saves no state, changes no mode,
mask or stack, and transfers control nowhere" (rules R15, R186). There is no return from it
(rule R190). -/
def raiseFault (reason : Fault) (s : State) : State := { s with status := .faulted reason }

/-- `steps <- steps + 1` (rule R107). -/
def State.countStep (s : State) : State := { s with steps := s.steps + 1 }

/-- The end of a step after its execute stage: Advance (rule R106), and then Count (rule R107) unless
Advance raised the fault. -/
def retire (next : NextPc) (s : State) : State :=
  match next with
  | .seq =>
    if s.pc = Config.lastPc then raiseFault .programCounterOverflow s
    else (s.setPc (s.pc + 1#12)).countStep
  | .jump target => (s.setPc target).countStep
  | .stop => s.countStep

/-- A budget `B` is set and `B` steps have completed. -/
def usedUp (budget : Option (BitVec 64)) (steps : Nat) : Bool :=
  match budget with
  | none => false
  | some b => steps == b.toNat

/-- The condition of the budget check (rule R102). -/
def budgetExhausted (s : State) : Bool := usedUp s.budget s.steps

end Sys2Proof.Machine
end

