-- ==== Sys2Proof/Machine/Operands.lean ====
section
/-! DEFINITION. The operand forms (rule R76), the word a STORE writes (rule R56), and the arithmetic on
register values (rules R11, R12, R134). -/

namespace Sys2Proof.Machine

/-- LOAD's immediate: `zext_XLEN(k8)`, never sign-extended (rule R76). -/
def immediate (k8 : Field8) : Word := k8.setWidth 32

/-- The address of STORE, JMPZ and JMPNZ: `zext_12(k8)`, absolute, 0 to 255 (rules R76, R123). -/
def shortAddress (k8 : Field8) : Addr := k8.setWidth 12

/-- The word a STORE writes: `x[rs][15:0]` (rule R56; decision D4, log 7). -/
def lowHalf (v : Word) : MemWord := v.extractLsb' 0 16

/-- `bv_32(n)`: the integer `n` reduced modulo 2^32 (rule R11). -/
def wrap32 (n : Int) : Word := BitVec.ofInt 32 n

/-- `sx(v)`: the value read as a two's-complement signed integer (rule R11). -/
def signedValue (v : Word) : Int := v.toInt

/-- `trunc_div(a, b)` = `sign(a)·sign(b)·floor(|a| / |b|)`, for `b ≠ 0` (rule R12). -/
def truncDiv (a b : Int) : Int := a.sign * b.sign * ((a.natAbs / b.natAbs : Nat) : Int)

/-- ADD's result (rule R130). -/
def addValue (a b : Word) : Word := wrap32 (signedValue a + signedValue b)

/-- SUB's result (rule R131). -/
def subValue (a b : Word) : Word := wrap32 (signedValue a - signedValue b)

/-- MUL's result (rule R132). -/
def mulValue (a b : Word) : Word := wrap32 (signedValue a * signedValue b)

/-- DIV's result for a divisor other than 0 (rules R133, R135). -/
def divValue (a b : Word) : Word := wrap32 (truncDiv (signedValue a) (signedValue b))

end Sys2Proof.Machine
end

