-- ==== Sys2Proof/Machine/Flags.lean ====
section
/-! DEFINITION. The tests on register values. The engine has no flags or condition codes (rule R33):
JMPZ, JMPNZ and DIV test a general register directly against zero. -/

namespace Sys2Proof.Machine

/-- `x[i] = 0`, all 32 bits compared (rules R133, R151, R152). -/
def isZero (v : Word) : Bool := v == 0#32

end Sys2Proof.Machine
end

