-- ==== Sys2Proof/Machine/Arithmetic.lean ====
section
/-! DEFINITION. Integer arithmetic: ADD, SUB, MUL and DIV (42_arithmetic.md). Both sources are read
before `Rd` is written (rule R108). -/

namespace Sys2Proof.Machine

/-- The shape ADD, SUB and MUL share: `x[rd] <- f(x[rs1], x[rs2])`; SEQ. -/
def arithmetic (f : Word → Word → Word) (rd rs1 rs2 : RegIdx) (s : State) : State :=
  retire .seq (s.setReg rd (f (s.reg rs1) (s.reg rs2)))

/-- ADD (rule R130). -/
def execAdd (rd rs1 rs2 : RegIdx) (s : State) : Host.Outcome State Fault Refusal :=
  .next (arithmetic addValue rd rs1 rs2 s)

/-- SUB (rule R131). -/
def execSub (rd rs1 rs2 : RegIdx) (s : State) : Host.Outcome State Fault Refusal :=
  .next (arithmetic subValue rd rs1 rs2 s)

/-- MUL (rule R132). -/
def execMul (rd rs1 rs2 : RegIdx) (s : State) : Host.Outcome State Fault Refusal :=
  .next (arithmetic mulValue rd rs1 rs2 s)

/-- DIV (rule R133): the fault is raised before the write. -/
def execDiv (rd rs1 rs2 : RegIdx) (s : State) : Host.Outcome State Fault Refusal :=
  .next (if isZero (s.reg rs2) then raiseFault .divisionByZero s else arithmetic divValue rd rs1 rs2 s)

end Sys2Proof.Machine
end

