-- ==== Sys2Proof/Machine/Control.lean ====
section
/-! DEFINITION. Control transfer: JMP, JMPZ and JMPNZ (43_control.md). None writes a register or
memory. -/

namespace Sys2Proof.Machine

/-- JMP (rule R150): JUMP(addr). -/
def execJmp (addr : Addr) (s : State) : Host.Outcome State Fault Refusal :=
  .next (retire (.jump addr) s)

/-- JMPZ (rule R151): JUMP(zext_12(addr)) if `x[rc] = 0`, else SEQ. -/
def execJmpz (rc : RegIdx) (addr : Field8) (s : State) : Host.Outcome State Fault Refusal :=
  .next (retire (if isZero (s.reg rc) then .jump (shortAddress addr) else .seq) s)

/-- JMPNZ (rule R152): JUMP(zext_12(addr)) if `x[rc] ≠ 0`, else SEQ. -/
def execJmpnz (rc : RegIdx) (addr : Field8) (s : State) : Host.Outcome State Fault Refusal :=
  .next (retire (if isZero (s.reg rc) then .seq else .jump (shortAddress addr)) s)

end Sys2Proof.Machine
end

