-- ==== Sys2Proof/Machine/DataMovement.lean ====
section
/-! DEFINITION. Data movement: LOAD and STORE (41_load_store.md). Each meaning is the execute stage
followed by Advance and Count (rules R105 to R107; log 6). -/

namespace Sys2Proof.Machine

/-- LOAD (rule R120): `x[rd] <- zext_XLEN(imm)`; SEQ. -/
def execLoad (rd : RegIdx) (imm : Field8) (s : State) : Host.Outcome State Fault Refusal :=
  .next (retire .seq (s.setReg rd (immediate imm)))

/-- STORE (rule R121): `MemWrite(zext_12(addr), 1, x[rs][15:0])`; SEQ. -/
def execStore (rs : RegIdx) (addr : Field8) (s : State) : Host.Outcome State Fault Refusal :=
  .next (retire .seq (s.writeMem (shortAddress addr) (lowHalf (s.reg rs))))

end Sys2Proof.Machine
end

