-- ==== Sys2Proof/Machine/System.lean ====
section
/-! DEFINITION. System: HALT and the unknown-opcode sentinel (44_system.md). -/

namespace Sys2Proof.Machine

/-- HALT (rule R170): `status <- HALTED`; STOP, so `pc` stays at the HALT's own address (decision D6,
log 9). -/
def execHalt (s : State) : Host.Outcome State Fault Refusal :=
  .next (retire .stop s.setHalted)

/-- UNKNOWN (rule R171): raise Fault(UnknownOpcode). -/
def execUnknown (s : State) : Host.Outcome State Fault Refusal :=
  .next (raiseFault .unknownOpcode s)

end Sys2Proof.Machine
end

