-- ==== Sys2Proof/Machine/Dispatch.lean ====
section
/-! DEFINITION. The dispatch of the execute stage (rule R105): one arm per decoded instruction. -/

namespace Sys2Proof.Machine

-- One meaning per constructor of Instr.
def exec (i : Instr) (s : State) : Host.Outcome State Fault Refusal :=
  match i with
  | .load rd imm => Sys2Proof.Machine.execLoad rd imm s
  | .store rs addr => Sys2Proof.Machine.execStore rs addr s
  | .add rd rs1 rs2 => Sys2Proof.Machine.execAdd rd rs1 rs2 s
  | .sub rd rs1 rs2 => Sys2Proof.Machine.execSub rd rs1 rs2 s
  | .mul rd rs1 rs2 => Sys2Proof.Machine.execMul rd rs1 rs2 s
  | .div rd rs1 rs2 => Sys2Proof.Machine.execDiv rd rs1 rs2 s
  | .jmp addr => Sys2Proof.Machine.execJmp addr s
  | .jmpz rc addr => Sys2Proof.Machine.execJmpz rc addr s
  | .jmpnz rc addr => Sys2Proof.Machine.execJmpnz rc addr s
  | .halt => Sys2Proof.Machine.execHalt s
  | .unknown => Sys2Proof.Machine.execUnknown s

end Sys2Proof.Machine
end

