-- ==== Sys2Proof/Machine/Step.lean ====
section
/-! DEFINITION. The fetch-decode-execute step (40_cycle.md rule R100), as the host's Step operation
takes it (rule R215). -/

namespace Sys2Proof.Machine

/-- One step. On a RUNNING engine it is rule R100: the budget check (rule R102), and then fetch, decode,
execute, advance and count, the last three being `exec`. A terminal engine has no step of its own
(rule R101), and the host's Step "does nothing" on it (rule R215): the state stays (log 2). -/
def step (s : State) : Host.Outcome State Fault Refusal :=
  match s.status with
  | .running =>
    if budgetExhausted s then .next (raiseFault .stepBudgetExceeded s)
    else exec (decode (fetchWord s)) s
  | .halted => .next s
  | .faulted _ => .next s

/-- `s` with the instruction of bits `w` stored where `step` fetches next, and the two things that this
fetch takes: status RUNNING, and a budget that is not used up (log 5). -/
def State.withFetchWord (s : State) (nbits w : Nat) : State :=
  { s.writeMem s.pc (BitVec.ofNat 16 (w % 2 ^ nbits)) with
    status := .running
    budget := if budgetExhausted s then none else s.budget }

end Sys2Proof.Machine
end

