-- ==== Sys2Proof/Machine/Assembler.lean ====
section
/-! DEFINITION. The assembler of the surrounding software, as far as the spec keeps it: its source syntax
and its error taxonomy (rules R5, R90 to R99). Source text is a list of characters. -/

namespace Sys2Proof.Machine

/-- Source text, a line or a token. -/
abbrev Text := List Char

/-- The label table: a name and the address it is bound to (rule R92). -/
abbrev Labels := List (Text × Nat)

/-- The assembly errors (rules R97, R183). -/
inductive AssembleError where
  /-- Raised by pass 1 (rule R92). Safe: no program is returned. -/
  | duplicateLabel
  /-- Raised by operand resolution and by a wrong operand count (rules R94, R96). Safe, as above. -/
  | unresolvedOperand
  /-- Raised by the range checks (rule R95), and by pass 1 for a label bound past the memory (rule R92;
  log 14). Safe, as above. -/
  | operandOutOfRange
  /-- Raised by an unknown mnemonic (rule R96). Safe, as above. -/
  | unknownInstruction
  deriving DecidableEq, Repr

/-- The kinds of line (rule R90). -/
inductive SourceLine where
  | blank
  | comment
  | label (name : Text)
  | instruction (tokens : List Text)
  deriving DecidableEq, Repr

/-! ### Lines and tokens -/

/-- Split a text at every separator, keeping empty parts. -/
def splitText (sep : Char → Bool) : Text → List Text
  | [] => [[]]
  | c :: cs =>
    if sep c then [] :: splitText sep cs
    else
      match splitText sep cs with
      | [] => [[c]]
      | p :: ps => (c :: p) :: ps

/-- The lines of a source text: "one instruction or label per line" (rule R90). -/
def sourceLines (text : Text) : List Text := splitText (· == '\n') text

/-- Whitespace (log 14). -/
def isSpace (c : Char) : Bool := c == ' ' || c == '\t' || c == '\r' || c == '\n'

/-- Trim leading and trailing whitespace (rule R90). -/
def trimText (t : Text) : Text := ((t.dropWhile isSpace).reverse.dropWhile isSpace).reverse

/-- Split "at every run of whitespace and commas", empty tokens dropped (rule R91). -/
def tokensOf (t : Text) : List Text :=
  (splitText (fun c => isSpace c || c == ',') t).filter fun p => !p.isEmpty

/-- The kind of a line, tried in the order in which rule R90 lists the kinds (log 14). -/
def classifyLine (line : Text) : SourceLine :=
  match trimText line with
  | [] => .blank
  | c :: cs =>
    if c = '#' then .comment
    else if (c :: cs).getLast? = some ':' then .label (trimText (c :: cs).dropLast)
    else .instruction (tokensOf (c :: cs))

/-! ### Names and numbers -/

/-- The letters a case-insensitive comparison identifies: a to z with A to Z (log 14). -/
def upperText (t : Text) : Text := t.map Char.toUpper

/-- The mnemonics, case-insensitive (rule R91). -/
def mnemonicOf (t : Text) : Option Mnemonic :=
  match upperText t with
  | ['L', 'O', 'A', 'D'] => some .load
  | ['S', 'T', 'O', 'R', 'E'] => some .store
  | ['A', 'D', 'D'] => some .add
  | ['S', 'U', 'B'] => some .sub
  | ['M', 'U', 'L'] => some .mul
  | ['D', 'I', 'V'] => some .div
  | ['J', 'M', 'P'] => some .jmp
  | ['J', 'M', 'P', 'Z'] => some .jmpz
  | ['J', 'M', 'P', 'N', 'Z'] => some .jmpnz
  | ['H', 'A', 'L', 'T'] => some .halt
  | _ => none

/-- The value of a decimal digit. -/
def digitValue (c : Char) : Option Nat :=
  if '0' ≤ c ∧ c ≤ '9' then some (c.toNat - '0'.toNat) else none

/-- The value of a list of decimal digits, the first the most significant, after `acc`. -/
def digitsValue : Text → Nat → Option Nat
  | [], acc => some acc
  | c :: cs, acc => (digitValue c).bind fun d => digitsValue cs (10 * acc + d)

/-- "a token of decimal digits maps to its literal value" (rule R94). -/
def literalValue (t : Text) : Option Nat :=
  match t with
  | [] => none
  | c :: cs => digitsValue (c :: cs) 0

/-- The register names, exactly `R0` to `R15`, case-insensitive, with no leading zero (rule R21). -/
def registerValue (t : Text) : Option Nat :=
  match upperText t with
  | ['R', d] => digitValue d
  | ['R', '1', d] => (digitValue d).bind fun n => if n ≤ 5 then some (10 + n) else none
  | _ => none

/-- The address a label is bound to; label names are case-sensitive (rule R94). -/
def labelValue : Labels → Text → Option Nat
  | [], _ => none
  | (name, a) :: ls, t => if name = t then some a else labelValue ls t

/-- Operand resolution in the order of rule R94: register name, label, decimal digits. -/
def resolveOperand (labels : Labels) (t : Text) : Except AssembleError Nat :=
  match registerValue t with
  | some n => .ok n
  | none =>
    match labelValue labels t with
    | some n => .ok n
    | none =>
      match literalValue t with
      | some n => .ok n
      | none => .error .unresolvedOperand

/-- Resolve the operands left to right; the first that fails is the error. -/
def resolveOperands (labels : Labels) : List Text → Except AssembleError (List Nat)
  | [] => .ok []
  | t :: ts =>
    match resolveOperand labels t with
    | .error e => .error e
    | .ok n =>
      match resolveOperands labels ts with
      | .error e => .error e
      | .ok ns => .ok (n :: ns)

/-! ### The two passes -/

/-- Pass 1 (rule R92): bind each label to the count of instruction lines before it. A bound address is
below 4096, and one that is not "must be rejected at assemble time" (rule R95; which error, and that a
duplicate name is found first, log 14). -/
def collectLabels : List SourceLine → Nat → Labels → Except AssembleError Labels
  | [], _, labels => .ok labels
  | .blank :: ls, n, labels => collectLabels ls n labels
  | .comment :: ls, n, labels => collectLabels ls n labels
  | .label name :: ls, n, labels =>
    match labelValue labels name with
    | some _ => .error .duplicateLabel
    | none =>
      if n < Config.memWords then collectLabels ls n (labels ++ [(name, n)])
      else .error .operandOutOfRange
  | .instruction _ :: ls, n, labels => collectLabels ls (n + 1) labels

/-- The decoded instruction of a source-level one whose operands fit (rules R91, R95). -/
def instrOfRaw (r : RawInstr) : Option Instr :=
  match r.op, r.operands with
  | .load, [rd, imm] => some (.load (BitVec.ofNat 4 rd) (BitVec.ofNat 8 imm))
  | .store, [rs, addr] => some (.store (BitVec.ofNat 4 rs) (BitVec.ofNat 8 addr))
  | .add, [rd, rs1, rs2] => some (.add (BitVec.ofNat 4 rd) (BitVec.ofNat 4 rs1) (BitVec.ofNat 4 rs2))
  | .sub, [rd, rs1, rs2] => some (.sub (BitVec.ofNat 4 rd) (BitVec.ofNat 4 rs1) (BitVec.ofNat 4 rs2))
  | .mul, [rd, rs1, rs2] => some (.mul (BitVec.ofNat 4 rd) (BitVec.ofNat 4 rs1) (BitVec.ofNat 4 rs2))
  | .div, [rd, rs1, rs2] => some (.div (BitVec.ofNat 4 rd) (BitVec.ofNat 4 rs1) (BitVec.ofNat 4 rs2))
  | .jmp, [addr] => some (.jmp (BitVec.ofNat 12 addr))
  | .jmpz, [rc, addr] => some (.jmpz (BitVec.ofNat 4 rc) (BitVec.ofNat 8 addr))
  | .jmpnz, [rc, addr] => some (.jmpnz (BitVec.ofNat 4 rc) (BitVec.ofNat 8 addr))
  | .halt, [] => some .halt
  | _, _ => none

/-- Encode a source-level instruction, after its range checks (rules R93, R95). -/
def encodeRaw (r : RawInstr) : Except AssembleError MemWord :=
  if r.wellFormed then
    match (instrOfRaw r).bind encode with
    | some w => .ok w
    | none => .error .unresolvedOperand
  else .error .operandOutOfRange

/-- Assemble one instruction line: the mnemonic first, then the operand count, then the operands, then
their ranges (rules R93 to R96; log 14). -/
def assembleLine (labels : Labels) (tokens : List Text) : Except AssembleError MemWord :=
  match tokens with
  | [] => .error .unknownInstruction
  | m :: operands =>
    match mnemonicOf m with
    | none => .error .unknownInstruction
    | some op =>
      if operands.length = op.limits.length then
        match resolveOperands labels operands with
        | .error e => .error e
        | .ok values => encodeRaw { op := op, operands := values }
      else .error .unresolvedOperand

/-- Pass 2 (rule R93): the words of the instruction lines, in program order. -/
def assembleLines (labels : Labels) : List SourceLine → Except AssembleError (List MemWord)
  | [] => .ok []
  | .blank :: ls => assembleLines labels ls
  | .comment :: ls => assembleLines labels ls
  | .label _ :: ls => assembleLines labels ls
  | .instruction tokens :: ls =>
    match assembleLine labels tokens with
    | .error e => .error e
    | .ok w =>
      match assembleLines labels ls with
      | .error e => .error e
      | .ok ws => .ok (w :: ws)

/-- `assemble(source_text)`: the words in program order "plus the resolved label table" (rule R98). The
first error found aborts, pass-1 errors before pass-2 errors (rule R97; decision D13). -/
def assemble (text : Text) : Except AssembleError (List MemWord × Labels) :=
  let lines := (sourceLines text).map classifyLine
  match collectLabels lines 0 [] with
  | .error e => .error e
  | .ok labels =>
    match assembleLines labels lines with
    | .error e => .error e
    | .ok words => .ok (words, labels)

end Sys2Proof.Machine
end

