-- ==== Sys2Proof/Machine/ProgramFormat.lean ====
section
/-! DEFINITION. The external program formats of rule R86: a line of sixteen characters, or two bytes, for
each word. They are read by the loader, outside the block (rule R88; decision D12, log 16). -/

namespace Sys2Proof.Machine

/-- A character of the text form. -/
def bitOfChar : Char → Option Bool
  | '0' => some false
  | '1' => some true
  | _ => none

/-- The character of a bit. -/
def charOfBit (b : Bool) : Char := if b then '1' else '0'

/-- The bits of a list of characters, the first character the most significant, after `acc`. -/
def bitsValue : List Char → Nat → Option Nat
  | [], acc => some acc
  | c :: cs, acc => (bitOfChar c).bind fun b => bitsValue cs (2 * acc + b.toNat)

/-- The word of one line of the text form: "the first character of a line is bit 15 and the last is
bit 0" (rule R86). A line that is not sixteen such characters has no word (log 16). -/
def wordOfLine (line : List Char) : Option MemWord :=
  if line.length = 16 then (bitsValue line 0).map (BitVec.ofNat 16) else none

/-- The line of a word in the text form (rule R86). -/
def lineOfWord (w : MemWord) : List Char :=
  [15, 14, 13, 12, 11, 10, 9, 8, 7, 6, 5, 4, 3, 2, 1, 0].map fun i => charOfBit (w.getLsbD i)

/-- The words of a program in the text form; line `k` is word `k` (rule R86). -/
def wordsOfLines : List (List Char) → Option (List MemWord)
  | [] => some []
  | l :: ls => (wordOfLine l).bind fun w => (wordsOfLines ls).map fun ws => w :: ws

/-- The words of a program in the packed binary form: "each word is two bytes, the byte holding bits
15–8 first" (rule R86). An odd byte at the end has no word (log 16). -/
def wordsOfBytes : List (BitVec 8) → Option (List MemWord)
  | [] => some []
  | [_] => none
  | hi :: lo :: bs => (wordsOfBytes bs).map fun ws => (hi ++ lo) :: ws

/-- The packed binary form of a program (rule R86). -/
def bytesOfWords : List MemWord → List (BitVec 8)
  | [] => []
  | w :: ws => w.extractLsb' 8 8 :: w.extractLsb' 0 8 :: bytesOfWords ws

end Sys2Proof.Machine
end

