-- ==== Sys2Proof/Machine/HostOps.lean ====
section
/-! DEFINITION. The bounds-checked accessors (rules R53, R180) and the host operations of the block
(70_reset_and_hazards.md rules R210 to R216), with the status port's codes (rule R37). Each acts only
between steps (rule R109). -/

namespace Sys2Proof.Machine

/-- The one host error that is no fault reason (rule R184). -/
inductive LoadError where
  /-- Answered by `New` and `LoadProgram` for more than 4096 words (rules R211, R212). Safe: no
  engine is built and no state changes. -/
  | programTooLarge
  deriving DecidableEq, Repr

/-- What `Run` returns (rule R213). -/
inductive RunOutcome where
  | halted
  | faulted (reason : Fault)
  deriving DecidableEq, Repr

/-- What `ReadCtl` returns (rule R214), coded as in rule R37. -/
structure CtlSnapshot where
  /-- The program counter. -/
  pc : Addr
  /-- The two-bit status code. -/
  status : BitVec 2
  /-- The three-bit reason code. -/
  reason : BitVec 3
  /-- The completed-step counter. -/
  steps : Nat
  deriving DecidableEq, Repr

/-- The accessor `read_register(i)`: InvalidRegister if `i ∉ [0,16)` (rule R180). The host's
`ReadReg(i)` (rule R214). -/
def readRegister (i : Nat) (s : State) : Except Fault Word :=
  if i < Config.numRegs then .ok (s.reg (BitVec.ofNat 4 i)) else .error .invalidRegister

/-- The accessor `write_register(i, v)`, used only by the execute stage (rules R180, R216). -/
def writeRegister (i : Nat) (v : Word) (s : State) : Except Fault State :=
  if i < Config.numRegs then .ok (s.setReg (BitVec.ofNat 4 i) v) else .error .invalidRegister

/-- The accessor `read_memory(a)`: InvalidAddress if `a ∉ [0,4096)` (rule R53). The host's
`ReadMem(a)` (rule R214). -/
def readMemory (a : Nat) (s : State) : Except Fault MemWord :=
  if a < Config.memWords then .ok (s.readMem (BitVec.ofNat 12 a)) else .error .invalidAddress

/-- The accessor `write_memory(a, v)`, used only by the execute stage (rules R53, R216). -/
def writeMemory (a : Nat) (v : MemWord) (s : State) : Except Fault State :=
  if a < Config.memWords then .ok (s.writeMem (BitVec.ofNat 12 a) v) else .error .invalidAddress

/-- The status code: RUNNING 0, HALTED 1, FAULTED 2 (rule R37; decision D16, log 17). -/
def Status.code : Status → BitVec 2
  | .running => 0#2
  | .halted => 1#2
  | .faulted _ => 2#2

/-- The code of a fault reason (rules R37, R180; decision D16, log 17). -/
def Fault.code : Fault → BitVec 3
  | .unknownOpcode => 1#3
  | .divisionByZero => 2#3
  | .invalidRegister => 3#3
  | .invalidAddress => 4#3
  | .programCounterOverflow => 5#3
  | .stepBudgetExceeded => 6#3

/-- The reason code: 0 when the status is not FAULTED (rule R37). -/
def Status.reasonCode : Status → BitVec 3
  | .running => 0#3
  | .halted => 0#3
  | .faulted r => r.code

/-- `ReadCtl` (rule R214). -/
def readCtl (s : State) : CtlSnapshot where
  pc := s.pc
  status := s.status.code
  reason := s.status.reasonCode
  steps := s.steps

/-- `New(program, budget)` (rule R211). -/
def engineNew (program : List MemWord) (budget : Option (BitVec 64)) : Except LoadError State :=
  if program.length ≤ Config.memWords then
    .ok { State.reset with mem := Memory.load [] 0 program, budget := budget }
  else .error .programTooLarge

/-- `LoadProgram(words)` (rule R212): memory only, and nothing on failure. -/
def loadProgram (words : List MemWord) (s : State) : Except LoadError State :=
  if words.length ≤ Config.memWords then .ok { s with mem := Memory.load s.mem 0 words }
  else .error .programTooLarge

/-- The outcome a status holds: none while RUNNING (rules R199, R213). -/
def Status.outcome : Status → Option RunOutcome
  | .running => none
  | .halted => some .halted
  | .faulted r => some (.faulted r)

/-- The host's `Step` (rule R215): one step, and the new status beside the new state. A step that
answered no next state would give none (no step does). -/
def hostStep (s : State) : Option (Status × State) :=
  match step s with
  | .next t => some (t.status, t)
  | .fault _ => none
  | .refused _ => none

/-- `Run` (rules R110, R213), observed for at most `fuel` steps: the outcome and the final state if the
engine is terminal by then, and none if it still runs. `Run` returns exactly when some fuel gives an
answer; a run that never ends gives none for every fuel (log 15). -/
def hostRun : Nat → State → Option (RunOutcome × State)
  | 0, s => s.status.outcome.map fun o => (o, s)
  | fuel + 1, s =>
    match s.status.outcome with
    | some o => some (o, s)
    | none =>
      match step s with
      | .next t => hostRun fuel t
      | .fault _ => none
      | .refused _ => none

end Sys2Proof.Machine
end

