-- ==== Sys2Proof/Safety.lean ====
section
/-! DEFINITION. What claims are stated in: which registers an instruction names, the ends of a run, the
invariant of the engine, and the lines of a source program. -/

namespace Sys2Proof

/-- The registers an instruction's execute stage reads (rules R23, R105). -/
def Instr.sources : Instr → List RegIdx
  | .load _ _ => []
  | .store rs _ => [rs]
  | .add _ rs1 rs2 => [rs1, rs2]
  | .sub _ rs1 rs2 => [rs1, rs2]
  | .mul _ rs1 rs2 => [rs1, rs2]
  | .div _ rs1 rs2 => [rs1, rs2]
  | .jmp _ => []
  | .jmpz rc _ => [rc]
  | .jmpnz rc _ => [rc]
  | .halt => []
  | .unknown => []

/-- The register an instruction writes, if any: "Only LOAD, ADD, SUB, MUL and DIV write a register, and
each writes only its `Rd`" (rule R23). -/
def Instr.destination : Instr → Option RegIdx
  | .load rd _ => some rd
  | .store _ _ => none
  | .add rd _ _ => some rd
  | .sub rd _ _ => some rd
  | .mul rd _ _ => some rd
  | .div rd _ _ => some rd
  | .jmp _ => none
  | .jmpz _ _ => none
  | .jmpnz _ _ => none
  | .halt => none
  | .unknown => none

namespace Machine

/-- Whether an instruction that does not fault in its execute stage asks Advance for `pc + 1` (rule R26):
LOAD, STORE, ADD, SUB, MUL, a DIV with a divisor other than 0, and a JMPZ or JMPNZ whose condition is
false. -/
def requestsNext (i : Instr) (s : State) : Prop :=
  match i with
  | .load _ _ => True
  | .store _ _ => True
  | .add _ _ _ => True
  | .sub _ _ _ => True
  | .mul _ _ _ => True
  | .div _ _ rs2 => s.reg rs2 ≠ 0#32
  | .jmp _ => False
  | .jmpz rc _ => s.reg rc ≠ 0#32
  | .jmpnz rc _ => s.reg rc = 0#32
  | .halt => False
  | .unknown => False

/-- A step from `s` writes register `r`: it runs an instruction (the engine is RUNNING and its budget is
not used up) whose destination is `r`, and that is no DIV by zero, since "A DIV that faults writes
nothing" (rule R23). -/
def writesRegister (r : RegIdx) (s : State) : Prop :=
  s.status = .running ∧ budgetExhausted s = false ∧ (decode (fetchWord s)).destination = some r ∧
  ∀ rd rs1 rs2, decode (fetchWord s) = .div rd rs1 rs2 → s.reg rs2 ≠ 0#32

/-- A run from `s` to `t`, in steps none of which writes `r`. -/
inductive RunsWithoutWriting (r : RegIdx) (s : State) : State → Prop where
  /-- No step. -/
  | none : RunsWithoutWriting r s s
  /-- One step more. -/
  | snoc {t u : State} (before : RunsWithoutWriting r s t)
      (other : ¬writesRegister r t) (last : step t = .next u) :
      RunsWithoutWriting r s u

/-- A terminal status: HALTED or FAULTED (rule R27). -/
def Status.terminal : Status → Bool
  | .running => false
  | .halted => true
  | .faulted _ => true

/-- A run is safe so far when the status is not FAULTED: HALTED is the good end and FAULTED a bad one
(rule R199). -/
def State.safe (s : State) : Bool :=
  match s.status with
  | .running => true
  | .halted => true
  | .faulted _ => false

/-- No more steps have completed than a budget admits (rules R102, R224). -/
def State.withinBudget (s : State) : Bool :=
  match s.budget with
  | none => true
  | some b => decide (s.steps ≤ b.toNat)

/-- What the state says after the run has ended, read as rule R182 lets the host read it: the word at `pc`
is the instruction that ended the run. No step ends with the two reasons that only an accessor gives
(rule R180). -/
def State.postMortem (s : State) : Prop :=
  match s.status with
  | .running => True
  | .halted => decode (fetchWord s) = .halt
  | .faulted .unknownOpcode => decode (fetchWord s) = .unknown
  | .faulted .divisionByZero =>
    ∃ rd rs1 rs2, decode (fetchWord s) = .div rd rs1 rs2 ∧ isZero (s.reg rs2) = true
  | .faulted .programCounterOverflow => s.pc = Config.lastPc
  | .faulted .stepBudgetExceeded => budgetExhausted s = true
  | .faulted .invalidRegister => False
  | .faulted .invalidAddress => False

/-- The invariant that every step keeps. -/
structure State.Invariant (s : State) : Prop where
  /-- The memory is in its canonical form, inside the 4096 words. -/
  memory : Memory.wf s.mem = true
  /-- The budget is kept. -/
  budget : s.withinBudget = true
  /-- A terminal state shows the instruction that ended the run. -/
  ended : s.postMortem

/-! ### Source programs (rule R90) -/

/-- The lines of a source text with their kinds. -/
def programLines (text : Text) : List SourceLine := (sourceLines text).map classifyLine

/-- The tokens of an instruction line. -/
def SourceLine.tokens : SourceLine → Option (List Text)
  | .blank => none
  | .comment => none
  | .label _ => none
  | .instruction tokens => some tokens

/-- The instruction lines of a program, in order. -/
def instructionLines (lines : List SourceLine) : List (List Text) := lines.filterMap SourceLine.tokens

/-- The number of instruction lines before line `p` (rule R92). -/
def instructionsBefore (lines : List SourceLine) (p : Nat) : Nat := (instructionLines (lines.take p)).length

end Machine
end Sys2Proof
end

