-- ==== Sys2Proof/Certificates/Slice0/Obligations.lean ====
section
/-! DEFINITION. The statements for the provers. Each docstring names the rules of spec/ it formalises, and
where a clause rests on one of the spec's own decisions D<n> or on the model's choice, which one. -/

open Sys2Proof Sys2Proof.Machine

/-! ### The codec -/

/-- Rule R80: the instruction each word decodes to, with every operand field at every value. -/
def Obligations.DecodeReadsFieldsOfEveryOpcode : Prop :=
  (∀ (rd : RegIdx) (imm : Field8), decode (0b0001#4 ++ rd ++ imm) = .load rd imm) ∧
  (∀ (rs : RegIdx) (addr : Field8), decode (0b0010#4 ++ rs ++ addr) = .store rs addr) ∧
  (∀ rd rs1 rs2 : RegIdx, decode (0b0011#4 ++ rd ++ rs1 ++ rs2) = .add rd rs1 rs2) ∧
  (∀ rd rs1 rs2 : RegIdx, decode (0b0100#4 ++ rd ++ rs1 ++ rs2) = .sub rd rs1 rs2) ∧
  (∀ rd rs1 rs2 : RegIdx, decode (0b0101#4 ++ rd ++ rs1 ++ rs2) = .mul rd rs1 rs2) ∧
  (∀ rd rs1 rs2 : RegIdx, decode (0b0110#4 ++ rd ++ rs1 ++ rs2) = .div rd rs1 rs2) ∧
  (∀ addr : Addr, decode (0b1000#4 ++ addr) = .jmp addr) ∧
  (∀ (rc : RegIdx) (addr : Field8), decode (0b1001#4 ++ rc ++ addr) = .jmpz rc addr) ∧
  (∀ (rc : RegIdx) (addr : Field8), decode (0b1010#4 ++ rc ++ addr) = .jmpnz rc addr) ∧
  (∀ x : BitVec 12, decode (0b1111#4 ++ x) = .halt) ∧
  (∀ x : BitVec 12, decode (0b0000#4 ++ x) = .unknown) ∧
  (∀ x : BitVec 12, decode (0b0111#4 ++ x) = .unknown) ∧
  (∀ x : BitVec 12, decode (0b1011#4 ++ x) = .unknown) ∧
  (∀ x : BitVec 12, decode (0b1100#4 ++ x) = .unknown) ∧
  (∀ x : BitVec 12, decode (0b1101#4 ++ x) = .unknown) ∧
  (∀ x : BitVec 12, decode (0b1110#4 ++ x) = .unknown)

/-- Rule R83, first law: every instruction but the sentinel has a word, and that word decodes to it. -/
def Obligations.DecodeOfEncodeIsTheInstruction : Prop :=
  ∀ i : Instr, i.wellFormed = true → ∃ w, encode i = some w ∧ decode w = i

/-- Rule R83, second and third laws: every word of the nine opcodes with operands encodes back to itself,
and a HALT word does exactly when it is 0xF000 (decision D8, conflict C5: canonical words only). -/
def Obligations.EncodeOfDecodeIsTheCanonicalWord : Prop :=
  ∀ w : MemWord,
    (w.extractLsb' 12 4 ∈ [0b0001#4, 0b0010#4, 0b0011#4, 0b0100#4, 0b0101#4, 0b0110#4, 0b1000#4, 0b1001#4,
        0b1010#4] → encode (decode w) = some w) ∧
    (w.extractLsb' 12 4 = 0b1111#4 → encode (decode w) = some 0xF000#16 ∧
      (encode (decode w) = some w ↔ w = 0xF000#16))

/-- The words the spec writes out (95_test_vectors.md, Codec) decode as it says. -/
def Obligations.SpecSampleWordsDecode : Prop :=
  decode 0x1105#16 = .load 1 5 ∧ decode 0x1FFF#16 = .load 15 255 ∧ decode 0x2406#16 = .store 4 6 ∧
  decode 0x3312#16 = .add 3 1 2 ∧ decode 0x4301#16 = .sub 3 0 1 ∧ decode 0x5322#16 = .mul 3 2 2 ∧
  decode 0x6310#16 = .div 3 1 0 ∧ decode 0x8FFF#16 = .jmp 4095 ∧ decode 0x9105#16 = .jmpz 1 5 ∧
  decode 0xA4FF#16 = .jmpnz 4 255 ∧ decode 0xF000#16 = .halt ∧ decode 0xF123#16 = .halt ∧
  decode 0x0000#16 = .unknown ∧ decode 0x7ABC#16 = .unknown

/-! ### The step -/

/-- Rule R100: a RUNNING engine whose budget is not used up runs the instruction that the word at `pc`
decodes to. -/
def Obligations.StepRunsDecodedInstruction : Prop :=
  ∀ (s : State) (i : Instr), s.status = .running → (∀ b, s.budget = some b → s.steps ≠ b.toNat) →
    decode (s.readMem s.pc) = i → step s = exec i s

/-- Rule R102 (decision D9): a step that starts with the budget used up raises StepBudgetExceeded before
the fetch and changes nothing else, whatever word stands at `pc`. -/
def Obligations.UsedUpBudgetFaultsBeforeFetch : Prop :=
  ∀ (s : State) (b : BitVec 64), s.status = .running → s.budget = some b → s.steps = b.toNat →
    step s = .next { s with status := .faulted .stepBudgetExceeded }

/-- Rules R101, R215 (log 2: the model writes "does nothing" as the same state again): a terminal engine
stays as it is. -/
def Obligations.TerminalEngineStays : Prop :=
  ∀ s : State, s.status ≠ .running → step s = .next s

/-- Rule R199: a RUNNING engine always has a step, and the step changes the state. -/
def Obligations.RunningEngineIsNeverStuck : Prop :=
  ∀ s : State, s.status = .running → ∃ t, step s = .next t ∧ t ≠ s

/-- The model's loader (log 5): a word placed by `withFetchWord` is what the next step runs, and the
registers, `pc`, the step count and every other word are as they were. -/
def Obligations.PlacedWordIsRunNext : Prop :=
  ∀ (s : State) (w : MemWord), Memory.wf s.mem = true →
    step (s.withFetchWord 16 w.toNat) = exec (decode w) (s.withFetchWord 16 w.toNat) ∧
    (∀ r, (s.withFetchWord 16 w.toNat).reg r = s.reg r) ∧
    (s.withFetchWord 16 w.toNat).pc = s.pc ∧ (s.withFetchWord 16 w.toNat).steps = s.steps ∧
    (∀ a, a ≠ s.pc → (s.withFetchWord 16 w.toNat).readMem a = s.readMem a)

/-! ### The instructions' results -/

/-- Rule R120: LOAD decodes from its word, writes the zero-extended immediate, leaves memory, and
advances, or overflows at 4095. -/
def Obligations.LoadWritesZeroExtendedImmediate : Prop :=
  ∀ (rd : RegIdx) (imm : Field8) (s : State),
    decode (0b0001#4 ++ rd ++ imm) = .load rd imm ∧
    ∃ t, exec (.load rd imm) s = .next t ∧ (t.reg rd).toNat = imm.toNat ∧
      (∀ a, t.readMem a = s.readMem a) ∧
      (s.pc ≠ 4095#12 → t.pc = s.pc + 1#12 ∧ t.status = s.status) ∧
      (s.pc = 4095#12 → t.status = .faulted .programCounterOverflow)

/-- Rule R121 (decision D4: the low 16 bits): STORE writes the low half of its register at the
zero-extended address, in a memory in canonical form reads back as that word, and advances, or
overflows at 4095. -/
def Obligations.StoreWritesLowHalf : Prop :=
  ∀ (rs : RegIdx) (addr : Field8) (s : State),
    ∃ t, exec (.store rs addr) s = .next t ∧
      (Memory.wf s.mem = true → (t.readMem (addr.setWidth 12)).toNat = (s.reg rs).toNat % 65536) ∧
      (s.pc ≠ 4095#12 → t.pc = s.pc + 1#12 ∧ t.status = s.status) ∧
      (s.pc = 4095#12 → t.status = .faulted .programCounterOverflow)

/-- Rules R130, R131, R132, R134 (decisions D1 and D2: 32 bits, wrapping): ADD, SUB and MUL write the
exact result on signed values, reduced modulo 2^32. -/
def Obligations.AddSubMulWriteWrappedResult : Prop :=
  ∀ (rd rs1 rs2 : RegIdx) (s : State),
    (∃ t, exec (.add rd rs1 rs2) s = .next t ∧
      t.reg rd = BitVec.ofInt 32 ((s.reg rs1).toInt + (s.reg rs2).toInt)) ∧
    (∃ t, exec (.sub rd rs1 rs2) s = .next t ∧
      t.reg rd = BitVec.ofInt 32 ((s.reg rs1).toInt - (s.reg rs2).toInt)) ∧
    (∃ t, exec (.mul rd rs1 rs2) s = .next t ∧
      t.reg rd = BitVec.ofInt 32 ((s.reg rs1).toInt * (s.reg rs2).toInt))

/-- Rules R133, R135 (decisions D1 to D3): DIV with a divisor other than 0 writes the quotient truncated
toward zero, reduced modulo 2^32. -/
def Obligations.DivWritesTruncatedQuotient : Prop :=
  ∀ (rd rs1 rs2 : RegIdx) (s : State), s.reg rs2 ≠ 0#32 →
    ∃ t, exec (.div rd rs1 rs2) s = .next t ∧
      t.reg rd = BitVec.ofInt 32 ((s.reg rs1).toInt.tdiv (s.reg rs2).toInt)

/-- Rules R133, R187 (decision D7): DIV with a zero divisor raises DivisionByZero and changes nothing
else, its `Rd` included, at every `pc`. -/
def Obligations.DivByZeroFaultsAndWritesNothing : Prop :=
  ∀ (rd rs1 rs2 : RegIdx) (s : State), s.reg rs2 = 0#32 →
    exec (.div rd rs1 rs2) s = .next { s with status := .faulted .divisionByZero }

/-- Rule R150: JMP decodes from its word and sets `pc` to its address, at every `pc`; registers, memory
and status stay. -/
def Obligations.JmpSetsPc : Prop :=
  ∀ (addr : Addr) (s : State),
    decode (0b1000#4 ++ addr) = .jmp addr ∧
    ∃ t, exec (.jmp addr) s = .next t ∧ t.pc = addr ∧ t.status = s.status ∧
      (∀ r, t.reg r = s.reg r) ∧ (∀ a, t.readMem a = s.readMem a)

/-- Rule R151: JMPZ decodes from its word, jumps to its zero-extended address exactly when all 32 bits of
`Rc` are 0, and else advances, or overflows at 4095; the register is only read, and memory stays. -/
def Obligations.JmpzJumpsOnZero : Prop :=
  ∀ (rc : RegIdx) (addr : Field8) (s : State),
    decode (0b1001#4 ++ rc ++ addr) = .jmpz rc addr ∧
    ∃ t, exec (.jmpz rc addr) s = .next t ∧ (∀ r, t.reg r = s.reg r) ∧ (∀ a, t.readMem a = s.readMem a) ∧
      ((s.reg rc).toNat = 0 → t.pc.toNat = addr.toNat ∧ t.status = s.status) ∧
      ((s.reg rc).toNat ≠ 0 → s.pc ≠ 4095#12 → t.pc = s.pc + 1#12 ∧ t.status = s.status) ∧
      ((s.reg rc).toNat ≠ 0 → s.pc = 4095#12 → t.status = .faulted .programCounterOverflow)

/-- Rule R152: JMPNZ decodes from its word, jumps to its zero-extended address exactly when `Rc` is not 0,
and else advances, or overflows at 4095; registers and memory stay. -/
def Obligations.JmpnzJumpsOnNonzero : Prop :=
  ∀ (rc : RegIdx) (addr : Field8) (s : State),
    decode (0b1010#4 ++ rc ++ addr) = .jmpnz rc addr ∧
    ∃ t, exec (.jmpnz rc addr) s = .next t ∧ (∀ r, t.reg r = s.reg r) ∧ (∀ a, t.readMem a = s.readMem a) ∧
      ((s.reg rc).toNat ≠ 0 → t.pc.toNat = addr.toNat ∧ t.status = s.status) ∧
      ((s.reg rc).toNat = 0 → s.pc ≠ 4095#12 → t.pc = s.pc + 1#12 ∧ t.status = s.status) ∧
      ((s.reg rc).toNat = 0 → s.pc = 4095#12 → t.status = .faulted .programCounterOverflow)

/-- Rules R170, R84, R107 (decisions D6, D8, D9): every word of opcode 1111 is HALT, which sets HALTED,
counts, and changes nothing else, `pc` included, at every `pc`. -/
def Obligations.HaltStopsAtItsOwnAddress : Prop :=
  (∀ x : BitVec 12, decode (0b1111#4 ++ x) = .halt) ∧
  ∀ s : State, exec .halt s = .next { s with status := .halted, steps := s.steps + 1 }

/-- Rule R171: every word of a reserved opcode decodes to the sentinel, which raises UnknownOpcode and
changes nothing else. -/
def Obligations.ReservedOpcodesRaiseUnknownOpcode : Prop :=
  (∀ w : MemWord, w.extractLsb' 12 4 ∈ [0b0000#4, 0b0111#4, 0b1011#4, 0b1100#4, 0b1101#4, 0b1110#4] →
    decode w = .unknown) ∧
  ∀ s : State, exec .unknown s = .next { s with status := .faulted .unknownOpcode }

/-- Rule R108: an instruction whose destination is also a source computes from the old value: ADD doubles,
SUB gives 0, and DIV of a register other than 0 by itself gives 1. -/
def Obligations.DestinationThatIsASourceUsesOldValue : Prop :=
  ∀ (r : RegIdx) (s : State),
    (∃ t, exec (.add r r r) s = .next t ∧ t.reg r = s.reg r + s.reg r) ∧
    (∃ t, exec (.sub r r r) s = .next t ∧ t.reg r = 0#32) ∧
    (s.reg r ≠ 0#32 → ∃ t, exec (.div r r r) s = .next t ∧ t.reg r = 1#32)

/-! ### Advance, count and frames -/

/-- Rules R26, R106, R107 (decisions D7, D9): an instruction that asks for the next word moves `pc` on by
one, keeps the status and counts; at 4095 it overflows, keeps `pc` and does not count. -/
def Obligations.SequentialInstructionsAdvanceOrOverflow : Prop :=
  ∀ (i : Instr) (s t : State), requestsNext i s → exec i s = .next t →
    (s.pc ≠ 4095#12 → t.pc = s.pc + 1#12 ∧ t.status = s.status ∧ t.steps = s.steps + 1) ∧
    (s.pc = 4095#12 → t.pc = 4095#12 ∧ t.status = .faulted .programCounterOverflow ∧ t.steps = s.steps)

/-- Rule R107 (decision D9): a step of a RUNNING engine counts when it ends RUNNING or HALTED, and not
when it ends FAULTED. -/
def Obligations.StepsCountCompletedSteps : Prop :=
  ∀ s t : State, s.status = .running → step s = .next t →
    (t.status = .running → t.steps = s.steps + 1) ∧ (t.status = .halted → t.steps = s.steps + 1) ∧
    (∀ r, t.status = .faulted r → t.steps = s.steps)

/-- The frame of LOAD, ADD, SUB, MUL and DIV, the instructions with a destination (rules R23, R29, R33;
decisions D7, D9): the other registers, every memory word and the budget are unchanged; status and count
either go on, or show an overflow, or (DIV) a division by zero that leaves the destination too. -/
def Obligations.FrameOfRegisterWriters : Prop :=
  ∀ (i : Instr) (rd : RegIdx) (s t : State), i.destination = some rd → exec i s = .next t →
    (∀ r, r ≠ rd → t.reg r = s.reg r) ∧ (∀ a, t.readMem a = s.readMem a) ∧ t.budget = s.budget ∧
    ((t.status = s.status ∧ t.steps = s.steps + 1) ∨
      (t.status = .faulted .programCounterOverflow ∧ t.steps = s.steps ∧ t.pc = s.pc) ∨
      (t.status = .faulted .divisionByZero ∧ t.steps = s.steps ∧ t.pc = s.pc ∧ t.reg rd = s.reg rd))

/-- The frame of STORE (rules R121, R123, R23, R29; decisions D7, D9): every register, the budget and every
word outside the one address, which is the zero-extended field, are unchanged. -/
def Obligations.FrameOfStore : Prop :=
  ∀ (rs : RegIdx) (addr : Field8) (s t : State), exec (.store rs addr) s = .next t →
    (∀ r, t.reg r = s.reg r) ∧ (∀ a, a ≠ shortAddress addr → t.readMem a = s.readMem a) ∧
    (shortAddress addr).toNat = addr.toNat ∧ t.budget = s.budget ∧
    ((t.status = s.status ∧ t.steps = s.steps + 1) ∨
      (t.status = .faulted .programCounterOverflow ∧ t.steps = s.steps ∧ t.pc = s.pc))

/-- The frame of JMP, JMPZ, JMPNZ, HALT and the sentinel (rules R23, R29, R150 to R152, R170, R171;
decisions D6, D7, D9): every register, every memory word and the budget are unchanged. -/
def Obligations.FrameOfControlAndSystem : Prop :=
  ∀ (i : Instr) (s t : State),
    ((∃ a, i = .jmp a) ∨ (∃ rc a, i = .jmpz rc a) ∨ (∃ rc a, i = .jmpnz rc a) ∨ i = .halt ∨ i = .unknown) →
    exec i s = .next t →
    (∀ r, t.reg r = s.reg r) ∧ (∀ a, t.readMem a = s.readMem a) ∧ t.budget = s.budget ∧
    ((t.status = s.status ∧ t.steps = s.steps + 1) ∨
      (t.status = .faulted .programCounterOverflow ∧ t.steps = s.steps ∧ t.pc = s.pc) ∨
      (i = .halt ∧ t.status = .halted ∧ t.steps = s.steps + 1 ∧ t.pc = s.pc) ∨
      (i = .unknown ∧ t.status = .faulted .unknownOpcode ∧ t.steps = s.steps ∧ t.pc = s.pc))

/-- Rule R24: a register keeps its value over every step that does not write it, and over a program load.
A step writes it when it runs an instruction with that destination, but for a DIV by zero (rule R23). -/
def Obligations.RegistersKeepTheirValues : Prop :=
  (∀ (s t : State) (r : RegIdx), step s = .next t → ¬writesRegister r s → t.reg r = s.reg r) ∧
  (∀ (words : List MemWord) (s t : State), loadProgram words s = .ok t → ∀ r, t.reg r = s.reg r)

/-- Rule R23: an instruction depends on no register but its sources. Two runs that start with different
values in a register that is no source end alike, but for that register. -/
def Obligations.InstructionsReadOnlyTheirSources : Prop :=
  ∀ (i : Instr) (r : RegIdx) (v : Word) (s t u : State), r ∉ i.sources →
    exec i s = .next t → exec i (s.setReg r v) = .next u →
    u.pc = t.pc ∧ u.status = t.status ∧ u.steps = t.steps ∧ u.budget = t.budget ∧ u.mem = t.mem ∧
    ∀ q, q ≠ r → u.reg q = t.reg q

/-- Rules R52, R59, R121: a step changes memory only when it runs a STORE, and no step changes a word at
256 or above. -/
def Obligations.OnlyStoresChangeMemoryAndOnlyLowWords : Prop :=
  ∀ s t : State, step s = .next t →
    ((∀ rs addr, decode (fetchWord s) ≠ .store rs addr) → t.mem = s.mem) ∧
    (∀ a : Addr, 256 ≤ a.toNat → t.readMem a = s.readMem a)

/-- Rule R64: a STORE to `pc + 1` changes the next instruction run. -/
def Obligations.StoreToNextWordIsRunNext : Prop :=
  ∀ (s : State) (rs : RegIdx) (addr : Field8), s.status = .running →
    (∀ b, s.budget = some b → s.steps ≠ b.toNat ∧ s.steps + 1 ≠ b.toNat) → Memory.wf s.mem = true →
    decode (fetchWord s) = .store rs addr → s.pc.toNat + 1 = addr.toNat →
    ∃ t, step s = .next t ∧ step t = exec (decode ((s.reg rs).setWidth 16)) t

/-! ### Faults -/

/-- Rules R180, R189, R101 (decision D25): which status a step of a RUNNING engine ends with, and exactly
when; no step ends with the two reasons of the accessors (rule R53). -/
def Obligations.StatusAfterStepHasExactCause : Prop :=
  ∀ s t : State, s.status = .running → step s = .next t →
    (t.status = .faulted .stepBudgetExceeded ↔ ∃ b, s.budget = some b ∧ s.steps = b.toNat) ∧
    (t.status = .faulted .unknownOpcode ↔ budgetExhausted s = false ∧ decode (fetchWord s) = .unknown) ∧
    (t.status = .faulted .divisionByZero ↔ budgetExhausted s = false ∧
      ∃ rd rs1 rs2, decode (fetchWord s) = .div rd rs1 rs2 ∧ s.reg rs2 = 0#32) ∧
    (t.status = .faulted .programCounterOverflow ↔ budgetExhausted s = false ∧
      s.pc = 4095#12 ∧ requestsNext (decode (fetchWord s)) s) ∧
    (t.status = .halted ↔ budgetExhausted s = false ∧ decode (fetchWord s) = .halt) ∧
    t.status ≠ .faulted .invalidRegister ∧ t.status ≠ .faulted .invalidAddress

/-- Rule R187 (decision D7): the state a fault leaves. Every fault but the overflow changes the status
alone; the overflow keeps `pc`, `steps` and the budget, and the registers and memory are what the same
instruction makes of them at another address. -/
def Obligations.FaultLeavesTheTabledState : Prop :=
  ∀ (s t : State) (r : Fault), s.status = .running → step s = .next t → t.status = .faulted r →
    (r ≠ .programCounterOverflow → t = { s with status := .faulted r }) ∧
    (r = .programCounterOverflow → t.pc = 4095#12 ∧ t.pc = s.pc ∧ t.steps = s.steps ∧ t.budget = s.budget ∧
      ∃ u, exec (decode (fetchWord s)) (s.setPc 0#12) = .next u ∧ t.regs = u.regs ∧ t.mem = u.mem)

/-! ### Invariants and runs -/

/-- Rule R38 with log 4 (no program, no budget: the model's choice): the values after reset. -/
def Obligations.ResetHoldsTheResetValues : Prop :=
  (∀ r, State.reset.reg r = 0#32) ∧ State.reset.pc = 0#12 ∧ State.reset.status = .running ∧
  (∀ a, State.reset.readMem a = 0#16) ∧ State.reset.budget = none ∧ State.reset.steps = 0

/-- The invariant holds of the state after reset. -/
def Obligations.ResetMeetsTheInvariant : Prop :=
  State.reset.Invariant

/-- Every step keeps the invariant (log 1 for the memory's form; rules R102, R182 with decisions D7, D9):
the memory's canonical form, the count within the budget, and, once terminal, the instruction that ended
the run at `pc`. -/
def Obligations.StepKeepsTheInvariant : Prop :=
  ∀ s t : State, s.Invariant → step s = .next t → t.Invariant

/-- Every engine that `New` builds meets the invariant (rule R211). -/
def Obligations.NewEngineMeetsTheInvariant : Prop :=
  ∀ (program : List MemWord) (budget : Option (BitVec 64)) (s : State),
    engineNew program budget = .ok s → s.Invariant

/-- Log 1: two memories in canonical form that read alike at every address are equal. -/
def Obligations.CanonicalMemoriesThatReadAlikeAreEqual : Prop :=
  ∀ m m' : Memory, Memory.wf m = true → Memory.wf m' = true →
    (∀ a : Addr, Memory.read m a.toNat = Memory.read m' a.toNat) → m = m'

/-- Rule R40: a register that no instruction has written reads as 0, along every run from `New`. The run may
end, stay ended, and hold DIV by zero over that register, which writes nothing (rule R23). -/
def Obligations.UnwrittenRegisterReadsZero : Prop :=
  ∀ (program : List MemWord) (budget : Option (BitVec 64)) (s t : State) (r : RegIdx),
    engineNew program budget = .ok s → RunsWithoutWriting r s t → t.reg r = 0#32

/-- Rule R224: with a budget `B`, Run returns after at most `B + 1` steps counted from the start; from a
state with steps already completed, after what is left of the budget and one more. -/
def Obligations.RunUnderBudgetReturns : Prop :=
  ∀ (s : State) (b : BitVec 64), s.budget = some b → s.steps ≤ b.toNat →
    ∃ o t, hostRun (b.toNat - s.steps + 1) s = some (o, t) ∧ t.steps ≤ b.toNat

/-- Rules R102, R107 and the source's bounded-loop property (decision D9): a run that halts with no budget
halts alike under every budget that covers its steps, and under a smaller one faults with
StepBudgetExceeded after exactly the budget's steps. -/
def Obligations.BudgetThresholdIsTheTrueInstructionCount : Prop :=
  ∀ (s t : State) (fuel : Nat) (b : BitVec 64), s.budget = none → s.status = .running →
    hostRun fuel s = some (.halted, t) → s.steps ≤ b.toNat →
    (t.steps ≤ b.toNat →
      hostRun fuel { s with budget := some b } = some (.halted, { t with budget := some b })) ∧
    (b.toNat < t.steps →
      ∃ u, hostRun fuel { s with budget := some b } = some (.faulted .stepBudgetExceeded, u) ∧
        u.steps = b.toNat)

/-- Rules R110, R111, R150: a JMP to its own address with no budget runs for ever and is no fault. -/
def Obligations.SelfJumpWithoutBudgetNeverEnds : Prop :=
  ∀ s : State, s.status = .running → s.budget = none → decode (fetchWord s) = .jmp s.pc →
    ∀ fuel, hostRun fuel s = none

/-- Rules R213, R215 (decision D22): `Run` is `Step` repeated. It takes no step on a terminal engine, it
goes on from the state after one step of a running one, and observing it longer does not change its
answer. -/
def Obligations.RunIsStepRepeated : Prop :=
  (∀ (s : State) (o : RunOutcome) (fuel : Nat), s.status.outcome = some o → hostRun fuel s = some (o, s)) ∧
  (∀ (s t : State) (fuel : Nat), s.status = .running → hostStep s = some (t.status, t) →
    hostRun (fuel + 1) s = hostRun fuel t) ∧
  (∀ (s : State) (fuel more : Nat) (x : RunOutcome × State), hostRun fuel s = some x →
    hostRun (fuel + more) s = some x)

/-! ### Host operations -/

/-- Rule R211 (decisions D5, D21): `New` builds the reset state around a program of at most 4096 words, and
refuses a longer one. -/
def Obligations.NewBuildsTheResetState : Prop :=
  ∀ (program : List MemWord) (budget : Option (BitVec 64)),
    (program.length ≤ 4096 → ∃ s, engineNew program budget = .ok s ∧ (∀ r, s.reg r = 0#32) ∧ s.pc = 0#12 ∧
      s.status = .running ∧ s.budget = budget ∧ s.steps = 0 ∧
      ∀ a : Addr, s.readMem a = program.getD a.toNat 0#16) ∧
    (4096 < program.length → engineNew program budget = .error .programTooLarge)

/-- Rule R212 (decision D20): `LoadProgram` writes the words from address 0 and changes nothing else, and
refuses more than 4096 words. -/
def Obligations.LoadProgramWritesMemoryOnly : Prop :=
  ∀ (words : List MemWord) (s : State), Memory.wf s.mem = true →
    (words.length ≤ 4096 → ∃ t, loadProgram words s = .ok t ∧ t.regs = s.regs ∧ t.pc = s.pc ∧
      t.status = s.status ∧ t.budget = s.budget ∧ t.steps = s.steps ∧ Memory.wf t.mem = true ∧
      ∀ a : Addr, t.readMem a = words.getD a.toNat (s.readMem a)) ∧
    (4096 < words.length → loadProgram words s = .error .programTooLarge)

/-- Rules R53, R180, R214 (decision D19): the bounds-checked accessors give what the execute stage reads
inside their range, and the named reason outside. -/
def Obligations.AccessorsCheckTheirBounds : Prop :=
  ∀ s : State,
    (∀ r : RegIdx, readRegister r.toNat s = .ok (s.reg r)) ∧
    (∀ i, 16 ≤ i → readRegister i s = .error .invalidRegister) ∧
    (∀ a : Addr, readMemory a.toNat s = .ok (s.readMem a)) ∧
    (∀ a, 4096 ≤ a → readMemory a s = .error .invalidAddress) ∧
    (∀ (r : RegIdx) (v : Word), writeRegister r.toNat v s = .ok (s.setReg r v)) ∧
    (∀ i v, 16 ≤ i → writeRegister i v s = .error .invalidRegister) ∧
    (∀ (a : Addr) (v : MemWord), writeMemory a.toNat v s = .ok (s.writeMem a v)) ∧
    (∀ a v, 4096 ≤ a → writeMemory a v s = .error .invalidAddress)

/-- Rules R37, R214 (decisions D16, D18): the numbers of the status and reason codes, that they tell all
statuses apart, and that `ReadCtl` gives `pc`, the codes of the status and the step count; the unused codes
are never produced. -/
def Obligations.StatusCodesTellStatusesApart : Prop :=
  (∀ x y : Status, x.code = y.code → x.reasonCode = y.reasonCode → x = y) ∧
  (Status.running.code = 0#2 ∧ Status.halted.code = 1#2 ∧ ∀ r, (Status.faulted r).code = 2#2) ∧
  (Status.running.reasonCode = 0#3 ∧ Status.halted.reasonCode = 0#3 ∧
    (Status.faulted .unknownOpcode).reasonCode = 1#3 ∧ (Status.faulted .divisionByZero).reasonCode = 2#3 ∧
    (Status.faulted .invalidRegister).reasonCode = 3#3 ∧ (Status.faulted .invalidAddress).reasonCode = 4#3 ∧
    (Status.faulted .programCounterOverflow).reasonCode = 5#3 ∧
    (Status.faulted .stepBudgetExceeded).reasonCode = 6#3) ∧
  (∀ s : State, (readCtl s).pc = s.pc ∧ (readCtl s).status = s.status.code ∧
    (readCtl s).reason = s.status.reasonCode ∧ (readCtl s).steps = s.steps ∧ (readCtl s).status ≠ 3#2 ∧
    (readCtl s).reason ≠ 7#3 ∧ ((readCtl s).reason = 0#3 ↔ (readCtl s).status ≠ 2#2))

/-! ### Arithmetic -/

/-- Rule R12: `trunc_div(a, b)` is the quotient rounded toward zero, and equals
`sign(a)·sign(b)·floor(|a| / |b|)`. -/
def Obligations.TruncDivRoundsTowardZero : Prop :=
  ∀ a b : Int, b ≠ 0 →
    truncDiv a b = a.sign * b.sign * ⌊(a.natAbs : ℚ) / (b.natAbs : ℚ)⌋ ∧
    (truncDiv a b).natAbs * b.natAbs ≤ a.natAbs ∧ a.natAbs < ((truncDiv a b).natAbs + 1) * b.natAbs ∧
    (0 ≤ a * b → 0 ≤ truncDiv a b) ∧ (a * b ≤ 0 → truncDiv a b ≤ 0)

/-- Rule R134 (decisions D1, D2): where the exact result of ADD, SUB or MUL is from -2^31 to 2^31-1, the
written register reads as exactly that integer. -/
def Obligations.ResultsThatFitAreExact : Prop :=
  ∀ (rd rs1 rs2 : RegIdx) (s t : State) (n : Int), -2147483648 ≤ n → n ≤ 2147483647 →
    (n = (s.reg rs1).toInt + (s.reg rs2).toInt → exec (.add rd rs1 rs2) s = .next t → (t.reg rd).toInt = n) ∧
    (n = (s.reg rs1).toInt - (s.reg rs2).toInt → exec (.sub rd rs1 rs2) s = .next t → (t.reg rd).toInt = n) ∧
    (n = (s.reg rs1).toInt * (s.reg rs2).toInt → exec (.mul rd rs1 rs2) s = .next t → (t.reg rd).toInt = n)

/-- Rule R135 (decision D3): DIV at every sign combination is exact, but for -2^31 by -1, which gives
-2^31. -/
def Obligations.DivisionIsExactButForOneOverflow : Prop :=
  ∀ (rd rs1 rs2 : RegIdx) (s t : State), s.reg rs2 ≠ 0#32 → exec (.div rd rs1 rs2) s = .next t →
    (¬((s.reg rs1).toInt = -2147483648 ∧ (s.reg rs2).toInt = -1) →
      (t.reg rd).toInt = (s.reg rs1).toInt.tdiv (s.reg rs2).toInt) ∧
    ((s.reg rs1).toInt = -2147483648 → (s.reg rs2).toInt = -1 → (t.reg rd).toInt = -2147483648)

/-- Rule R132 (a property of modular arithmetic, K1 to K3): the low 32 bits are the same whether the
operands are read signed or unsigned, for MUL, and for ADD and SUB too. -/
def Obligations.WrappedResultsDoNotDependOnSignedness : Prop :=
  ∀ a b : Word,
    addValue a b = BitVec.ofNat 32 (a.toNat + b.toNat) ∧
    subValue a b = BitVec.ofInt 32 ((a.toNat : Int) - (b.toNat : Int)) ∧
    mulValue a b = BitVec.ofNat 32 (a.toNat * b.toNat)

/-! ### The assembler and the program formats -/

/-- Rules R82, R84, R98: every word an assembled program holds is the canonical word of an instruction and
decodes to it; in particular no reserved word and no non-canonical HALT is ever produced. -/
def Obligations.AssembledWordsAreCanonical : Prop :=
  ∀ (text : Text) (words : List MemWord) (labels : Labels), assemble text = .ok (words, labels) →
    ∀ w ∈ words, ∃ i : Instr, i.wellFormed = true ∧ encode i = some w ∧ decode w = i

/-- Rules R92, R93, R98: an assembled program has one word for each instruction line, and word `k` is what
the `k`-th instruction line assembles to under the label table. The label table has every label line's name
bound to exactly the number of instruction lines before it, nothing else, no name twice, and no address at or
above 4096. -/
def Obligations.AssembledProgramMatchesItsLines : Prop :=
  ∀ (text : Text) (words : List MemWord) (labels : Labels), assemble text = .ok (words, labels) →
    words.length = (instructionLines (programLines text)).length ∧
    (∀ (k : Nat) (tokens : List Text) (w : MemWord), (instructionLines (programLines text))[k]? = some tokens →
      words[k]? = some w → assembleLine labels tokens = .ok w) ∧
    (∀ (p : Nat) (name : Text), (programLines text)[p]? = some (.label name) →
      (name, instructionsBefore (programLines text) p) ∈ labels) ∧
    (∀ l ∈ labels, ∃ p, (programLines text)[p]? = some (.label l.1) ∧
      l.2 = instructionsBefore (programLines text) p) ∧
    (labels.map Prod.fst).Nodup ∧ ∀ l ∈ labels, l.2 < 4096

/-- Rules R82, R95: with the right number of operands, encoding succeeds exactly when every operand fits its
field, and then the word holds the operands themselves, not wrapped values. -/
def Obligations.EncodedOperandsAreNeverWrapped : Prop :=
  (∀ (op : Mnemonic) (code : Nat), (op, code) ∈ [(Mnemonic.load, 1), (.store, 2), (.jmpz, 9), (.jmpnz, 10)] →
    ∀ r k : Nat, (r ≤ 15 ∧ k ≤ 255 → encodeRaw ⟨op, [r, k]⟩ = .ok (BitVec.ofNat 16 (4096 * code + 256 * r + k))) ∧
      (15 < r ∨ 255 < k → encodeRaw ⟨op, [r, k]⟩ = .error .operandOutOfRange)) ∧
  (∀ (op : Mnemonic) (code : Nat), (op, code) ∈ [(Mnemonic.add, 3), (.sub, 4), (.mul, 5), (.div, 6)] →
    ∀ a b c : Nat, (a ≤ 15 ∧ b ≤ 15 ∧ c ≤ 15 →
        encodeRaw ⟨op, [a, b, c]⟩ = .ok (BitVec.ofNat 16 (4096 * code + 256 * a + 16 * b + c))) ∧
      (15 < a ∨ 15 < b ∨ 15 < c → encodeRaw ⟨op, [a, b, c]⟩ = .error .operandOutOfRange)) ∧
  (∀ k : Nat, (k ≤ 4095 → encodeRaw ⟨.jmp, [k]⟩ = .ok (BitVec.ofNat 16 (32768 + k))) ∧
    (4095 < k → encodeRaw ⟨.jmp, [k]⟩ = .error .operandOutOfRange)) ∧
  encodeRaw ⟨.halt, []⟩ = .ok 0xF000#16

/-- Rules R21, R91: mnemonics and register names are case-insensitive. -/
def Obligations.MnemonicsAndRegisterNamesIgnoreCase : Prop :=
  ∀ t u : Text, t.map Char.toUpper = u.map Char.toUpper →
    mnemonicOf t = mnemonicOf u ∧ registerValue t = registerValue u

/-- The assembler's examples of 95_test_vectors.md: words, and each of the four errors. -/
def Obligations.AssemblerExamplesGiveTheSpecsResults : Prop :=
  assemble "LOAD   R1 ,  5".toList = .ok ([0x1105#16], []) ∧
  assemble "JMP R7".toList = .ok ([0x8007#16], []) ∧
  assemble "JMPZ R1, 256".toList = .error .operandOutOfRange ∧
  assemble "LOAD R16, 1".toList = .error .unresolvedOperand ∧
  assemble "loop: HALT".toList = .error .unknownInstruction ∧
  assemble "a:\na:".toList = .error .duplicateLabel

/-- Rule R86 (decision D12): the text form and the packed form of a program read back as the program, and
the first character and the first byte are the high ones. -/
def Obligations.ProgramFormatsReadBack : Prop :=
  (∀ words : List MemWord, wordsOfLines (words.map lineOfWord) = some words) ∧
  (∀ words : List MemWord, wordsOfBytes (bytesOfWords words) = some words) ∧
  (∀ w : MemWord, (lineOfWord w).head? = some (if w.getLsbD 15 then '1' else '0')) ∧
  (∀ hi lo : BitVec 8, wordsOfBytes [hi, lo] = some [BitVec.ofNat 16 (256 * hi.toNat + lo.toNat)])

/-- Rules R92, R95, R97: the errors of pass 1, whatever pass 2 would find. In a program of fewer than 4096
instruction lines, two label lines of one name give DuplicateLabel. With all names different, a label line
after 4096 or more instruction lines is rejected, with OperandOutOfRange (which error is the model's choice,
log 14). -/
def Obligations.BadLabelsAbortAssembly : Prop :=
  ∀ text : Text,
    (∀ (p q : Nat) (name : Text), p < q → (programLines text)[p]? = some (.label name) →
      (programLines text)[q]? = some (.label name) → (instructionLines (programLines text)).length < 4096 →
      assemble text = .error .duplicateLabel) ∧
    (∀ (p : Nat) (name : Text), (programLines text)[p]? = some (.label name) →
      4096 ≤ instructionsBefore (programLines text) p →
      (∀ (q r : Nat) (n : Text), (programLines text)[q]? = some (.label n) →
        (programLines text)[r]? = some (.label n) → q = r) →
      assemble text = .error .operandOutOfRange)

/-- Rules R94, R96 (decisions D13, D15): an instruction line checks its mnemonic, then its operand count, then
resolves its operands (a register name first, then a label, then decimal digits), and gives the encoding of
the values; an operand that is none of the three fails the line with UnresolvedOperand. That it does so even
where another operand of the line is out of range, as in `LOAD 300, foo`, is the model's choice: all operands
are resolved before any range is checked (log 14). -/
def Obligations.InstructionLinesAssembleInOrder : Prop :=
  ∀ (labels : Labels) (m : Text) (operands : List Text),
    (mnemonicOf m = none → assembleLine labels (m :: operands) = .error .unknownInstruction) ∧
    ∀ op, mnemonicOf m = some op →
      (operands.length ≠ op.limits.length → assembleLine labels (m :: operands) = .error .unresolvedOperand) ∧
      (operands.length = op.limits.length →
        (∃ t ∈ operands, registerValue t = none ∧ labelValue labels t = none ∧ literalValue t = none) →
        assembleLine labels (m :: operands) = .error .unresolvedOperand) ∧
      (operands.length = op.limits.length →
        ∀ values : List Nat, operands.map (fun t =>
            (registerValue t).or ((labelValue labels t).or (literalValue t))) = values.map some →
          assembleLine labels (m :: operands) = encodeRaw ⟨op, values⟩)

/-- Rules R21, R94: the registers' names `R0` to `R15` and the decimal numerals have their values, and a name
with a leading zero or an index above 15 is no register. -/
def Obligations.OperandTokensHaveTheirValues : Prop :=
  (∀ i : Nat, i ≤ 15 → registerValue ('R' :: Nat.toDigits 10 i) = some i) ∧
  (∀ i : Nat, 15 < i → registerValue ('R' :: Nat.toDigits 10 i) = none) ∧
  (∀ t : Text, registerValue ('R' :: '0' :: t) = if t = [] then some 0 else none) ∧
  (∀ n : Nat, registerValue (Nat.toDigits 10 n) = none ∧ literalValue (Nat.toDigits 10 n) = some n)
end

