-- ==== Sys2Proof/Laws/Assembler.lean ====
section
/-! SUPPORT. What the assembler's two passes say: when a text assembles, when a name is unbound, and the
instruction lines of a program line by line. -/

namespace Sys2Proof.Machine

/-- A text assembles exactly when both passes succeed, pass 2 under the table of pass 1. -/
theorem assemble_eq_ok_iff {text : Text} {words : List MemWord} {labels : Labels} :
    assemble text = .ok (words, labels) ↔
      collectLabels (programLines text) 0 [] = .ok labels ∧
        assembleLines labels (programLines text) = .ok words := by
  rw [assemble, ← show programLines text = (sourceLines text).map classifyLine from rfl]
  constructor
  · intro h
    split at h
    · cases h
    · rename_i l hl
      split at h
      · cases h
      · rename_i w hw
        cases h
        exact ⟨hl, hw⟩
  · rintro ⟨hl, hw⟩
    simp only [hl, hw]

/-- An error of pass 1 is the error of the whole assembly. -/
theorem assemble_eq_error {text : Text} {e : AssembleError}
    (h : collectLabels (programLines text) 0 [] = .error e) : assemble text = .error e := by
  simp only [programLines] at h
  simp only [assemble, h]

/-- A name is unbound exactly when the table does not hold it. -/
theorem labelValue_eq_none_iff (labels : Labels) (t : Text) :
    labelValue labels t = none ↔ t ∉ labels.map Prod.fst := by
  induction labels with
  | nil => simp [labelValue]
  | cons l ls ih =>
    by_cases h : l.1 = t
    · simp [labelValue, h]
    · simp [labelValue, h, ih, Ne.symm h]

/-- A label's name is bound below the end of the memory, or the pass fails. -/
theorem collectLabels_label {name : Text} {ls : List SourceLine} {n : Nat} {labels : Labels}
    (free : name ∉ labels.map Prod.fst) :
    collectLabels (.label name :: ls) n labels =
      if n < 4096 then collectLabels ls n (labels ++ [(name, n)]) else .error .operandOutOfRange := by
  simp only [collectLabels, (labelValue_eq_none_iff _ _).mpr free]

/-- A second declaration of a name fails. -/
theorem collectLabels_duplicate {name : Text} {ls : List SourceLine} {n : Nat} {labels : Labels}
    (bound : name ∈ labels.map Prod.fst) :
    collectLabels (.label name :: ls) n labels = .error .duplicateLabel := by
  cases h : labelValue labels name with
  | none => exact absurd bound ((labelValue_eq_none_iff _ _).mp h)
  | some _ => simp only [collectLabels, h]

@[simp] theorem instructionLines_nil : instructionLines [] = [] := rfl
@[simp] theorem instructionLines_blank (ls : List SourceLine) :
    instructionLines (.blank :: ls) = instructionLines ls := rfl
@[simp] theorem instructionLines_comment (ls : List SourceLine) :
    instructionLines (.comment :: ls) = instructionLines ls := rfl
@[simp] theorem instructionLines_label (name : Text) (ls : List SourceLine) :
    instructionLines (.label name :: ls) = instructionLines ls := rfl
@[simp] theorem instructionLines_instruction (tokens : List Text) (ls : List SourceLine) :
    instructionLines (.instruction tokens :: ls) = tokens :: instructionLines ls := rfl
@[simp] theorem instructionsBefore_zero (ls : List SourceLine) : instructionsBefore ls 0 = 0 := rfl
@[simp] theorem instructionsBefore_succ (l : SourceLine) (ls : List SourceLine) (p : Nat) :
    instructionsBefore (l :: ls) (p + 1) = (instructionLines [l]).length + instructionsBefore ls p := by
  cases l <;> simp [instructionsBefore, Nat.add_comm]

end Sys2Proof.Machine
end

