-- ==== Sys2Proof/Laws/Codec.lean ====
section
/-! SUPPORT. The fields of a packed word, one lemma per field per format, and a packed word of a word's
own fields. -/

namespace Sys2Proof

open BitVec

section RI
variable (op : OpField) (r : RegIdx) (k8 : Field8)

theorem opField_packRI : opField (packRI op r k8) = op :=
  (extractLsb'_append_eq_of_le (xhi := op ++ r) (xlo := k8) (start := 12) (by decide)).trans <|
    (extractLsb'_append_eq_of_le (xhi := op) (xlo := r) (start := 4) (by decide)).trans
      extractLsb'_eq_self

theorem fieldA_packRI : fieldA (packRI op r k8) = r :=
  (extractLsb'_append_eq_of_le (xhi := op ++ r) (xlo := k8) (start := 8) (by decide)).trans <|
    (extractLsb'_append_eq_of_add_le (xhi := op) (xlo := r) (start := 0) (by decide)).trans
      extractLsb'_eq_self

theorem fieldK8_packRI : fieldK8 (packRI op r k8) = k8 :=
  (extractLsb'_append_eq_of_add_le (xhi := op ++ r) (xlo := k8) (start := 0) (by decide)).trans
    extractLsb'_eq_self

end RI

section RRR
variable (op : OpField) (rd rs1 rs2 : RegIdx)

theorem opField_packRRR : opField (packRRR op rd rs1 rs2) = op :=
  (extractLsb'_append_eq_of_le (xhi := op ++ rd ++ rs1) (xlo := rs2) (start := 12) (by decide)).trans <|
    (extractLsb'_append_eq_of_le (xhi := op ++ rd) (xlo := rs1) (start := 8) (by decide)).trans <|
      (extractLsb'_append_eq_of_le (xhi := op) (xlo := rd) (start := 4) (by decide)).trans
        extractLsb'_eq_self

theorem fieldA_packRRR : fieldA (packRRR op rd rs1 rs2) = rd :=
  (extractLsb'_append_eq_of_le (xhi := op ++ rd ++ rs1) (xlo := rs2) (start := 8) (by decide)).trans <|
    (extractLsb'_append_eq_of_le (xhi := op ++ rd) (xlo := rs1) (start := 4) (by decide)).trans <|
      (extractLsb'_append_eq_of_add_le (xhi := op) (xlo := rd) (start := 0) (by decide)).trans
        extractLsb'_eq_self

theorem fieldB_packRRR : fieldB (packRRR op rd rs1 rs2) = rs1 :=
  (extractLsb'_append_eq_of_le (xhi := op ++ rd ++ rs1) (xlo := rs2) (start := 4) (by decide)).trans <|
    (extractLsb'_append_eq_of_add_le (xhi := op ++ rd) (xlo := rs1) (start := 0) (by decide)).trans
      extractLsb'_eq_self

theorem fieldC_packRRR : fieldC (packRRR op rd rs1 rs2) = rs2 :=
  (extractLsb'_append_eq_of_add_le (xhi := op ++ rd ++ rs1) (xlo := rs2) (start := 0) (by decide)).trans
    extractLsb'_eq_self

end RRR

section A12
variable (op : OpField) (addr : Addr)

theorem opField_packA12 : opField (packA12 op addr) = op :=
  (extractLsb'_append_eq_of_le (xhi := op) (xlo := addr) (start := 12) (by decide)).trans
    extractLsb'_eq_self

theorem fieldA12_packA12 : fieldA12 (packA12 op addr) = addr :=
  (extractLsb'_append_eq_of_add_le (xhi := op) (xlo := addr) (start := 0) (by decide)).trans
    extractLsb'_eq_self

end A12

section Own
variable (w : MemWord)

theorem packA12_fields : packA12 (opField w) (fieldA12 w) = w :=
  extractLsb'_append_extractLsb' (w := 4) (len := 12)

theorem packRI_fields : packRI (opField w) (fieldA w) (fieldK8 w) = w := by
  have h : opField w ++ fieldA w = w.extractLsb' 8 8 :=
    extractLsb'_append_extractLsb'_eq_extractLsb' (start₁ := 8) (len₁ := 4) (len₂ := 4) rfl
  unfold packRI
  rw [h]
  exact extractLsb'_append_extractLsb' (w := 8) (len := 8)

theorem packRRR_fields : packRRR (opField w) (fieldA w) (fieldB w) (fieldC w) = w := by
  have h : fieldB w ++ fieldC w = w.extractLsb' 0 8 :=
    extractLsb'_append_extractLsb'_eq_extractLsb' (start₁ := 0) (len₁ := 4) (len₂ := 4) rfl
  have h' : packRRR (opField w) (fieldA w) (fieldB w) (fieldC w)
      = packRI (opField w) (fieldA w) (fieldB w ++ fieldC w) :=
    append_assoc (x₁ := opField w ++ fieldA w) (x₂ := fieldB w) (x₃ := fieldC w)
  rw [h', h]
  exact packRI_fields w

end Own

/-- Decoding by opcode: one equation for each defined opcode of rule R77. -/
theorem decode_of_opField (w : MemWord) :
    (opField w = 0b0001#4 → decode w = .load (fieldA w) (fieldK8 w)) ∧
    (opField w = 0b0010#4 → decode w = .store (fieldA w) (fieldK8 w)) ∧
    (opField w = 0b0011#4 → decode w = .add (fieldA w) (fieldB w) (fieldC w)) ∧
    (opField w = 0b0100#4 → decode w = .sub (fieldA w) (fieldB w) (fieldC w)) ∧
    (opField w = 0b0101#4 → decode w = .mul (fieldA w) (fieldB w) (fieldC w)) ∧
    (opField w = 0b0110#4 → decode w = .div (fieldA w) (fieldB w) (fieldC w)) ∧
    (opField w = 0b1000#4 → decode w = .jmp (fieldA12 w)) ∧
    (opField w = 0b1001#4 → decode w = .jmpz (fieldA w) (fieldK8 w)) ∧
    (opField w = 0b1010#4 → decode w = .jmpnz (fieldA w) (fieldK8 w)) ∧
    (opField w = 0b1111#4 → decode w = .halt) := by
  refine ⟨?_, ?_, ?_, ?_, ?_, ?_, ?_, ?_, ?_, ?_⟩ <;> intro h <;> simp only [decode, h]

/-- A word decodes to the sentinel exactly when its opcode is one of the six reserved ones (rule R78). -/
theorem decode_unknown_iff (w : MemWord) :
    decode w = .unknown ↔ opField w = 0b0000#4 ∨ opField w = 0b0111#4 ∨ opField w = 0b1011#4 ∨
      opField w = 0b1100#4 ∨ opField w = 0b1101#4 ∨ opField w = 0b1110#4 := by
  have hop : ∀ op : OpField, op = 0b0001#4 ∨ op = 0b0010#4 ∨ op = 0b0011#4 ∨ op = 0b0100#4 ∨
      op = 0b0101#4 ∨ op = 0b0110#4 ∨ op = 0b1000#4 ∨ op = 0b1001#4 ∨ op = 0b1010#4 ∨ op = 0b1111#4 ∨
      op = 0b0000#4 ∨ op = 0b0111#4 ∨ op = 0b1011#4 ∨ op = 0b1100#4 ∨ op = 0b1101#4 ∨
      op = 0b1110#4 := by decide
  rcases hop (opField w) with h | h | h | h | h | h | h | h | h | h | h | h | h | h | h | h <;>
    simp [decode, h]

end Sys2Proof
end

