-- ==== Sys2Proof/Laws/Memory.lean ====
section
/-! SUPPORT. The laws of the memory operations: read after write, and the canonical form. -/

namespace Sys2Proof.Machine

@[simp] theorem Memory.read_nil (a : Nat) : Memory.read [] a = Config.unwrittenWord := rfl

theorem Memory.read_cons (k : Nat) (v : MemWord) (m : Memory) (a : Nat) :
    Memory.read ((k, v) :: m) a = if k = a then v else Memory.read m a := rfl

theorem Memory.wfFrom_cons {lo k : Nat} {v : MemWord} {m : Memory} :
    Memory.wfFrom lo ((k, v) :: m) = true ↔
      lo ≤ k ∧ k < Config.memWords ∧ v ≠ Config.unwrittenWord ∧ Memory.wfFrom (k + 1) m = true := by
  simp [Memory.wfFrom, and_assoc]

/-- The canonical form from an address on is the canonical form from any lower address on. -/
theorem Memory.wfFrom_mono {lo lo' : Nat} {m : Memory} (h : Memory.wfFrom lo m = true) (hle : lo' ≤ lo) :
    Memory.wfFrom lo' m = true := by
  cases m with
  | nil => rfl
  | cons c m =>
    obtain ⟨h1, h2⟩ := Memory.wfFrom_cons.mp h
    exact Memory.wfFrom_cons.mpr ⟨Nat.le_trans hle h1, h2⟩

/-- Below its first address a canonical memory lists nothing. -/
theorem Memory.read_below {lo : Nat} {m : Memory} (h : Memory.wfFrom lo m = true) {a : Nat} (ha : a < lo) :
    Memory.read m a = Config.unwrittenWord := by
  induction m generalizing lo with
  | nil => rfl
  | cons c m ih =>
    obtain ⟨h1, -, -, h4⟩ := Memory.wfFrom_cons.mp h
    rw [Memory.read_cons, if_neg (by omega)]
    exact ih h4 (by omega)

theorem Memory.read_put_other {a b : Nat} (v : MemWord) (m : Memory) (h : a ≠ b) :
    Memory.read (Memory.put a v m) b = Memory.read m b := by
  unfold Memory.put
  split
  · rfl
  · rw [Memory.read_cons, if_neg h]

theorem Memory.read_put_same {lo a : Nat} (v : MemWord) {m : Memory} (h : Memory.wfFrom lo m = true)
    (ha : a < lo) : Memory.read (Memory.put a v m) a = v := by
  unfold Memory.put
  split
  · rename_i hv; rw [Memory.read_below h ha, hv]
  · rw [Memory.read_cons, if_pos rfl]

theorem Memory.wfFrom_put {lo a : Nat} (v : MemWord) {m : Memory} (h : Memory.wfFrom (a + 1) m = true)
    (hlo : lo ≤ a) (ha : a < Config.memWords) : Memory.wfFrom lo (Memory.put a v m) = true := by
  unfold Memory.put
  split
  · exact Memory.wfFrom_mono h (by omega)
  · rename_i hv; exact Memory.wfFrom_cons.mpr ⟨hlo, ha, hv, h⟩

/-- A write leaves every other address as it was. -/
theorem Memory.read_write_other (m : Memory) {a b : Nat} (v : MemWord) (h : a ≠ b) :
    Memory.read (Memory.write m a v) b = Memory.read m b := by
  induction m with
  | nil => exact Memory.read_put_other v [] h
  | cons c m ih =>
    obtain ⟨k, w⟩ := c
    simp only [Memory.write]
    split
    · exact Memory.read_put_other v _ h
    · split
      · rename_i hk; subst hk
        rw [Memory.read_put_other v m h, Memory.read_cons, if_neg h]
      · rw [Memory.read_cons, Memory.read_cons, ih]

/-- Reading a written address gives the written word. -/
theorem Memory.read_write_same_from {lo : Nat} {m : Memory} (hm : Memory.wfFrom lo m = true) (a : Nat)
    (v : MemWord) : Memory.read (Memory.write m a v) a = v := by
  induction m generalizing lo with
  | nil => exact Memory.read_put_same (lo := a + 1) v rfl (by omega)
  | cons c m ih =>
    obtain ⟨k, w⟩ := c
    obtain ⟨-, h2, h3, h4⟩ := Memory.wfFrom_cons.mp hm
    simp only [Memory.write]
    split
    · rename_i hak
      exact Memory.read_put_same v (Memory.wfFrom_cons.mpr ⟨Nat.le_refl k, h2, h3, h4⟩) hak
    · split
      · rename_i hk; subst hk; exact Memory.read_put_same v h4 (by omega)
      · rw [Memory.read_cons, if_neg (by omega)]; exact ih h4

/-- A write inside the memory keeps the canonical form. -/
theorem Memory.wfFrom_write {lo : Nat} {m : Memory} (hm : Memory.wfFrom lo m = true) {a : Nat}
    (v : MemWord) (hlo : lo ≤ a) (ha : a < Config.memWords) :
    Memory.wfFrom lo (Memory.write m a v) = true := by
  induction m generalizing lo with
  | nil => exact Memory.wfFrom_put v rfl hlo ha
  | cons c m ih =>
    obtain ⟨k, w⟩ := c
    obtain ⟨h1, h2, h3, h4⟩ := Memory.wfFrom_cons.mp hm
    simp only [Memory.write]
    split
    · exact Memory.wfFrom_put v (Memory.wfFrom_cons.mpr ⟨by omega, h2, h3, h4⟩) hlo ha
    · split
      · rename_i hk; subst hk; exact Memory.wfFrom_put v h4 hlo ha
      · exact Memory.wfFrom_cons.mpr ⟨h1, h2, h3, ih h4 (by omega)⟩

theorem Memory.wf_nil : Memory.wf [] = true := rfl

theorem Memory.wf_reset : Memory.wf State.reset.mem = true := rfl

theorem Memory.wf_write {m : Memory} (hm : Memory.wf m = true) (a : Addr) (v : MemWord) :
    Memory.wf (Memory.write m a.toNat v) = true :=
  Memory.wfFrom_write hm v (Nat.zero_le _) a.isLt

/-- A load that ends inside the memory keeps the canonical form. -/
theorem Memory.wf_load {m : Memory} (hm : Memory.wf m = true) {a : Nat} {ws : List MemWord}
    (h : a + ws.length ≤ Config.memWords) : Memory.wf (Memory.load m a ws) = true := by
  induction ws generalizing m a with
  | nil => exact hm
  | cons w ws ih =>
    simp only [List.length_cons] at h
    exact ih (Memory.wfFrom_write hm w (Nat.zero_le _) (by omega)) (by omega)

/-- Reading after a load: the loaded words at their addresses, and the old ones elsewhere. -/
theorem Memory.read_load {m : Memory} (hm : Memory.wf m = true) {k : Nat} {ws : List MemWord}
    (h : k + ws.length ≤ Config.memWords) (a : Nat) :
    Memory.read (Memory.load m k ws) a =
      if k ≤ a then ws.getD (a - k) (Memory.read m a) else Memory.read m a := by
  induction ws generalizing m k with
  | nil => simp [Memory.load]
  | cons w ws ih =>
    simp only [List.length_cons] at h
    have hw : Memory.wf (Memory.write m k w) = true :=
      Memory.wfFrom_write hm w (Nat.zero_le _) (by omega)
    rw [Memory.load, ih hw (by omega)]
    rcases Nat.lt_trichotomy a k with hak | rfl | hak
    · rw [if_neg (by omega), if_neg (by omega), Memory.read_write_other _ _ (by omega)]
    · rw [if_neg (by omega), if_pos (Nat.le_refl _), Memory.read_write_same_from hm]
      simp
    · rw [if_pos (by omega), if_pos (by omega), Memory.read_write_other _ _ (by omega)]
      obtain ⟨d, rfl⟩ : ∃ d, a = k + 1 + d := ⟨a - (k + 1), by omega⟩
      rw [show k + 1 + d - k = d + 1 by omega, show k + 1 + d - (k + 1) = d by omega]
      simp

theorem readMem_writeMem_same {s : State} (hm : Memory.wf s.mem = true) (a : Addr) (v : MemWord) :
    (s.writeMem a v).readMem a = v :=
  Memory.read_write_same_from hm a.toNat v

theorem readMem_writeMem_other (s : State) {a b : Addr} (v : MemWord) (h : b ≠ a) :
    (s.writeMem a v).readMem b = s.readMem b :=
  Memory.read_write_other s.mem v (fun e => h (BitVec.eq_of_toNat_eq e.symm))

end Sys2Proof.Machine
end

