-- ==== Sys2Proof/Laws/Operands.lean ====
section
/-! SUPPORT. The operand forms and the arithmetic, as facts on numbers. -/

namespace Sys2Proof.Machine

theorem immediate_toNat (k : Field8) : (immediate k).toNat = k.toNat := by
  have := k.isLt
  simp only [immediate, BitVec.toNat_setWidth]
  omega

theorem shortAddress_toNat (k : Field8) : (shortAddress k).toNat = k.toNat := by
  have := k.isLt
  simp only [shortAddress, BitVec.toNat_setWidth]
  omega

theorem lowHalf_toNat (v : Word) : (lowHalf v).toNat = v.toNat % 65536 := by simp [lowHalf]

/-- The spec's formula for the truncated quotient is Lean's truncating division. -/
theorem truncDiv_eq_tdiv (a b : Int) : truncDiv a b = a.tdiv b := by
  unfold truncDiv
  obtain ⟨m, rfl | rfl⟩ := a.eq_nat_or_neg <;> obtain ⟨n, rfl | rfl⟩ := b.eq_nat_or_neg <;>
    rcases Nat.eq_zero_or_pos m with rfl | hm <;> rcases Nat.eq_zero_or_pos n with rfl | hn <;>
    simp [Int.sign_eq_one_of_pos, Int.neg_tdiv, Int.tdiv_neg, *]

/-- An integer in the signed 32-bit range survives the wrap. -/
theorem toInt_wrap32 {n : Int} (lo : -2147483648 ≤ n) (hi : n ≤ 2147483647) : (wrap32 n).toInt = n := by
  simp only [wrap32, BitVec.toInt_ofInt]
  rw [Int.bmod_eq_of_le] <;> omega

end Sys2Proof.Machine
end

