-- ==== Sys2Proof/Laws/State.lean ====
section
/-! SUPPORT. One lemma per field per state update, and the read-after-write laws of registers. -/

namespace Sys2Proof.Machine

section SetReg
variable (s : State) (i j : RegIdx) (v w : Word) (a : Addr)

@[simp] theorem setReg_pc : (s.setReg i v).pc = s.pc := rfl
@[simp] theorem setReg_mem : (s.setReg i v).mem = s.mem := rfl
@[simp] theorem setReg_status : (s.setReg i v).status = s.status := rfl
@[simp] theorem setReg_budget : (s.setReg i v).budget = s.budget := rfl
@[simp] theorem setReg_steps : (s.setReg i v).steps = s.steps := rfl
@[simp] theorem setReg_readMem : (s.setReg i v).readMem a = s.readMem a := rfl

/-- Reading a register after a write: the written one has the value, the others keep theirs. -/
theorem reg_setReg : (s.setReg i v).reg j = if i = j then v else s.reg j := by
  simp [State.reg, State.setReg, Vector.get_eq_getElem, Vector.getElem_set, BitVec.toNat_inj]

@[simp] theorem reg_setReg_same : (s.setReg i v).reg i = v := by simp [reg_setReg]

theorem reg_setReg_other {i j : RegIdx} (h : j ≠ i) : (s.setReg i v).reg j = s.reg j := by
  simp [reg_setReg, h.symm]

end SetReg

section WriteMem
variable (s : State) (a : Addr) (v : MemWord) (i : RegIdx)

@[simp] theorem writeMem_regs : (s.writeMem a v).regs = s.regs := rfl
@[simp] theorem writeMem_pc : (s.writeMem a v).pc = s.pc := rfl
@[simp] theorem writeMem_mem : (s.writeMem a v).mem = Memory.write s.mem a.toNat v := rfl
@[simp] theorem writeMem_status : (s.writeMem a v).status = s.status := rfl
@[simp] theorem writeMem_budget : (s.writeMem a v).budget = s.budget := rfl
@[simp] theorem writeMem_steps : (s.writeMem a v).steps = s.steps := rfl
@[simp] theorem writeMem_reg : (s.writeMem a v).reg i = s.reg i := rfl

end WriteMem

section SetPc
variable (s : State) (t a : Addr) (i : RegIdx)

@[simp] theorem setPc_regs : (s.setPc t).regs = s.regs := rfl
@[simp] theorem setPc_pc : (s.setPc t).pc = t := rfl
@[simp] theorem setPc_mem : (s.setPc t).mem = s.mem := rfl
@[simp] theorem setPc_status : (s.setPc t).status = s.status := rfl
@[simp] theorem setPc_budget : (s.setPc t).budget = s.budget := rfl
@[simp] theorem setPc_steps : (s.setPc t).steps = s.steps := rfl
@[simp] theorem setPc_reg : (s.setPc t).reg i = s.reg i := rfl
@[simp] theorem setPc_readMem : (s.setPc t).readMem a = s.readMem a := rfl

end SetPc

section SetHalted
variable (s : State) (a : Addr) (i : RegIdx)

@[simp] theorem setHalted_regs : s.setHalted.regs = s.regs := rfl
@[simp] theorem setHalted_pc : s.setHalted.pc = s.pc := rfl
@[simp] theorem setHalted_mem : s.setHalted.mem = s.mem := rfl
@[simp] theorem setHalted_status : s.setHalted.status = .halted := rfl
@[simp] theorem setHalted_budget : s.setHalted.budget = s.budget := rfl
@[simp] theorem setHalted_steps : s.setHalted.steps = s.steps := rfl
@[simp] theorem setHalted_reg : s.setHalted.reg i = s.reg i := rfl
@[simp] theorem setHalted_readMem : s.setHalted.readMem a = s.readMem a := rfl

end SetHalted

section RaiseFault
variable (r : Fault) (s : State) (a : Addr) (i : RegIdx)

@[simp] theorem raiseFault_regs : (raiseFault r s).regs = s.regs := rfl
@[simp] theorem raiseFault_pc : (raiseFault r s).pc = s.pc := rfl
@[simp] theorem raiseFault_mem : (raiseFault r s).mem = s.mem := rfl
@[simp] theorem raiseFault_status : (raiseFault r s).status = .faulted r := rfl
@[simp] theorem raiseFault_budget : (raiseFault r s).budget = s.budget := rfl
@[simp] theorem raiseFault_steps : (raiseFault r s).steps = s.steps := rfl
@[simp] theorem raiseFault_reg : (raiseFault r s).reg i = s.reg i := rfl
@[simp] theorem raiseFault_readMem : (raiseFault r s).readMem a = s.readMem a := rfl

end RaiseFault

section CountStep
variable (s : State) (a : Addr) (i : RegIdx)

@[simp] theorem countStep_regs : s.countStep.regs = s.regs := rfl
@[simp] theorem countStep_pc : s.countStep.pc = s.pc := rfl
@[simp] theorem countStep_mem : s.countStep.mem = s.mem := rfl
@[simp] theorem countStep_status : s.countStep.status = s.status := rfl
@[simp] theorem countStep_budget : s.countStep.budget = s.budget := rfl
@[simp] theorem countStep_steps : s.countStep.steps = s.steps + 1 := rfl
@[simp] theorem countStep_reg : s.countStep.reg i = s.reg i := rfl
@[simp] theorem countStep_readMem : s.countStep.readMem a = s.readMem a := rfl

end CountStep

section Reset

@[simp] theorem reset_pc : State.reset.pc = 0#12 := rfl
@[simp] theorem reset_mem : State.reset.mem = [] := rfl
@[simp] theorem reset_status : State.reset.status = .running := rfl
@[simp] theorem reset_budget : State.reset.budget = none := rfl
@[simp] theorem reset_steps : State.reset.steps = 0 := rfl

theorem reset_reg (i : RegIdx) : State.reset.reg i = 0#32 := by
  simp [State.reg, State.reset, Vector.get_eq_getElem]

end Reset

/-- The zero test is equality with zero on all 32 bits. -/
theorem isZero_iff (v : Word) : isZero v = true ↔ v = 0#32 := by simp [isZero]

end Sys2Proof.Machine
end

