-- ==== Sys2Proof/Laws/Ops.lean ====
section
/-! SUPPORT. What the shared operations can do, said once: `retire`, the budget check, the arithmetic
shape, `exec` and `step`. -/

namespace Sys2Proof.Machine

/-! ### Advance and Count -/

theorem retire_seq_next {s : State} (h : s.pc ≠ Config.lastPc) :
    retire .seq s = (s.setPc (s.pc + 1#12)).countStep := by simp [retire, h]

theorem retire_seq_last {s : State} (h : s.pc = Config.lastPc) :
    retire .seq s = raiseFault .programCounterOverflow s := by simp [retire, h]

@[simp] theorem retire_jump (t : Addr) (s : State) : retire (.jump t) s = (s.setPc t).countStep := rfl

@[simp] theorem retire_stop (s : State) : retire .stop s = s.countStep := rfl

@[simp] theorem retire_regs (n : NextPc) (s : State) : (retire n s).regs = s.regs := by
  cases n <;> simp only [retire] <;> (try split) <;> rfl

@[simp] theorem retire_reg (n : NextPc) (s : State) (i : RegIdx) : (retire n s).reg i = s.reg i := by
  simp [State.reg]

@[simp] theorem retire_mem (n : NextPc) (s : State) : (retire n s).mem = s.mem := by
  cases n <;> simp only [retire] <;> (try split) <;> rfl

@[simp] theorem retire_readMem (n : NextPc) (s : State) (a : Addr) :
    (retire n s).readMem a = s.readMem a := by
  simp [State.readMem]

@[simp] theorem retire_budget (n : NextPc) (s : State) : (retire n s).budget = s.budget := by
  cases n <;> simp only [retire] <;> (try split) <;> rfl

/-- What the end of a step can do: raise the overflow fault at the last address and leave `pc` and
`steps`, or move `pc`, keep the status and count. -/
theorem retire_cases (n : NextPc) (s : State) :
    (n = .seq ∧ s.pc = Config.lastPc ∧ (retire n s).status = .faulted .programCounterOverflow ∧
      (retire n s).pc = s.pc ∧ (retire n s).steps = s.steps) ∨
    (¬(n = .seq ∧ s.pc = Config.lastPc) ∧ (retire n s).status = s.status ∧
      (retire n s).steps = s.steps + 1 ∧
      (retire n s).pc = match n with
        | .seq => s.pc + 1#12
        | .jump t => t
        | .stop => s.pc) := by
  cases n with
  | seq =>
    by_cases h : s.pc = Config.lastPc
    · exact .inl ⟨rfl, h, by simp [retire_seq_last h]⟩
    · exact .inr ⟨fun h' => h h'.2, by simp [retire_seq_next h]⟩
  | jump t => exact .inr ⟨by simp, by simp⟩
  | stop => exact .inr ⟨by simp, by simp⟩

/-! ### The budget check -/

theorem budgetExhausted_iff (s : State) :
    budgetExhausted s = true ↔ ∃ b, s.budget = some b ∧ s.steps = b.toNat := by
  unfold budgetExhausted usedUp
  cases s.budget <;> simp

/-- The budget that `withFetchWord` leaves is not used up. -/
theorem usedUp_cleared (budget : Option (BitVec 64)) (steps : Nat) :
    usedUp (if usedUp budget steps then none else budget) steps = false := by
  split
  · rfl
  · simpa using ‹¬usedUp budget steps = true›

/-! ### The execute stage -/

@[simp] theorem exec_load (rd : RegIdx) (imm : Field8) (s : State) :
    exec (.load rd imm) s = .next (retire .seq (s.setReg rd (immediate imm))) := rfl
@[simp] theorem exec_store (rs : RegIdx) (addr : Field8) (s : State) :
    exec (.store rs addr) s =
      .next (retire .seq (s.writeMem (shortAddress addr) (lowHalf (s.reg rs)))) := rfl
@[simp] theorem exec_add (rd rs1 rs2 : RegIdx) (s : State) :
    exec (.add rd rs1 rs2) s = .next (arithmetic addValue rd rs1 rs2 s) := rfl
@[simp] theorem exec_sub (rd rs1 rs2 : RegIdx) (s : State) :
    exec (.sub rd rs1 rs2) s = .next (arithmetic subValue rd rs1 rs2 s) := rfl
@[simp] theorem exec_mul (rd rs1 rs2 : RegIdx) (s : State) :
    exec (.mul rd rs1 rs2) s = .next (arithmetic mulValue rd rs1 rs2 s) := rfl
@[simp] theorem exec_div (rd rs1 rs2 : RegIdx) (s : State) :
    exec (.div rd rs1 rs2) s =
      .next (if isZero (s.reg rs2) then raiseFault .divisionByZero s
        else arithmetic divValue rd rs1 rs2 s) := rfl
@[simp] theorem exec_jmp (addr : Addr) (s : State) :
    exec (.jmp addr) s = .next (retire (.jump addr) s) := rfl
@[simp] theorem exec_jmpz (rc : RegIdx) (addr : Field8) (s : State) :
    exec (.jmpz rc addr) s =
      .next (retire (if isZero (s.reg rc) then .jump (shortAddress addr) else .seq) s) := rfl
@[simp] theorem exec_jmpnz (rc : RegIdx) (addr : Field8) (s : State) :
    exec (.jmpnz rc addr) s =
      .next (retire (if isZero (s.reg rc) then .seq else .jump (shortAddress addr)) s) := rfl
@[simp] theorem exec_halt (s : State) : exec .halt s = .next (retire .stop s.setHalted) := rfl
@[simp] theorem exec_unknown (s : State) : exec .unknown s = .next (raiseFault .unknownOpcode s) := rfl

/-- What an execute stage can do, with the end of the step: raise its fault on the state as it was, or
retire with a request after at most one register write, one memory word write or the change to HALTED. -/
theorem exec_cases {i : Instr} {s t : State} (h : exec i s = .next t) :
    (i = .unknown ∧ t = raiseFault .unknownOpcode s) ∨
    (∃ rd rs1 rs2, i = .div rd rs1 rs2 ∧ isZero (s.reg rs2) = true ∧ t = raiseFault .divisionByZero s) ∨
    (∃ rd v, i ≠ .halt ∧ i ≠ .unknown ∧ (∀ a, i ≠ .jmp a) ∧ t = retire .seq (s.setReg rd v)) ∨
    (∃ rs addr, i = .store rs addr ∧
      t = retire .seq (s.writeMem (shortAddress addr) (lowHalf (s.reg rs)))) ∨
    (∃ n, i ≠ .halt ∧ n ≠ .stop ∧ t = retire n s) ∨
    (i = .halt ∧ t = retire .stop s.setHalted) := by
  cases i with
  | load rd imm =>
    injection h with h; subst h
    exact .inr (.inr (.inl ⟨rd, _, by simp, by simp, by simp, rfl⟩))
  | store rs addr =>
    injection h with h; subst h
    exact .inr (.inr (.inr (.inl ⟨rs, addr, rfl, rfl⟩)))
  | add rd rs1 rs2 =>
    injection h with h; subst h
    exact .inr (.inr (.inl ⟨rd, _, by simp, by simp, by simp, rfl⟩))
  | sub rd rs1 rs2 =>
    injection h with h; subst h
    exact .inr (.inr (.inl ⟨rd, _, by simp, by simp, by simp, rfl⟩))
  | mul rd rs1 rs2 =>
    injection h with h; subst h
    exact .inr (.inr (.inl ⟨rd, _, by simp, by simp, by simp, rfl⟩))
  | div rd rs1 rs2 =>
    injection h with h; subst h
    cases hz : isZero (s.reg rs2)
    · exact .inr (.inr (.inl ⟨rd, _, by simp, by simp, by simp, rfl⟩))
    · exact .inr (.inl ⟨rd, rs1, rs2, rfl, hz, rfl⟩)
  | jmp addr =>
    injection h with h; subst h
    exact .inr (.inr (.inr (.inr (.inl ⟨_, by simp, by simp, rfl⟩))))
  | jmpz rc addr =>
    injection h with h; subst h
    exact .inr (.inr (.inr (.inr (.inl ⟨_, by simp, by split <;> simp, rfl⟩))))
  | jmpnz rc addr =>
    injection h with h; subst h
    exact .inr (.inr (.inr (.inr (.inl ⟨_, by simp, by split <;> simp, rfl⟩))))
  | halt =>
    injection h with h; subst h
    exact .inr (.inr (.inr (.inr (.inr ⟨rfl, rfl⟩))))
  | unknown =>
    injection h with h; subst h
    exact .inl ⟨rfl, rfl⟩

/-- Every execute stage answers a next state: no instruction is refused, and no fault ends the model's run. -/
theorem exec_total (i : Instr) (s : State) : ∃ t, exec i s = .next t := by
  cases i <;> exact ⟨_, rfl⟩

/-! ### The step -/

theorem step_running {s : State} (hr : s.status = .running) (hb : budgetExhausted s = false) :
    step s = exec (decode (fetchWord s)) s := by simp [step, hr, hb]

/-- What a step can do: nothing on a terminal engine, the budget fault, or the decoded instruction. -/
theorem step_cases {s t : State} (h : step s = .next t) :
    (s.status ≠ .running ∧ t = s) ∨
    (s.status = .running ∧ budgetExhausted s = true ∧ t = raiseFault .stepBudgetExceeded s) ∨
    (s.status = .running ∧ budgetExhausted s = false ∧ exec (decode (fetchWord s)) s = .next t) := by
  unfold step at h
  split at h
  · rename_i hr
    split at h
    · rename_i hb
      injection h with h
      exact .inr (.inl ⟨hr, hb, h.symm⟩)
    · rename_i hb
      exact .inr (.inr ⟨hr, by simpa using hb, h⟩)
  · rename_i hs
    injection h with h
    exact .inl ⟨by simp [hs], h.symm⟩
  · rename_i hs
    injection h with h
    exact .inl ⟨by simp [hs], h.symm⟩

end Sys2Proof.Machine
end

