-- ==== Sys2Proof/Laws/PerInstr.lean ====
section
/-! SUPPORT. The per-instruction family EncodeOpcode: the word of an instruction carries its opcode of
rule R77. -/

namespace Sys2Proof.Laws.EncodeOpcode

/-- The opcode of rule R77, and none for the sentinel. -/
def opcodeOf : Instr → Option OpField
  | .load _ _ => some 0b0001#4
  | .store _ _ => some 0b0010#4
  | .add _ _ _ => some 0b0011#4
  | .sub _ _ _ => some 0b0100#4
  | .mul _ _ _ => some 0b0101#4
  | .div _ _ _ => some 0b0110#4
  | .jmp _ => some 0b1000#4
  | .jmpz _ _ => some 0b1001#4
  | .jmpnz _ _ => some 0b1010#4
  | .halt => some 0b1111#4
  | .unknown => none

/-- Encoding gives a word exactly when the instruction has an opcode, and the word carries it. -/
def Statement (i : Instr) : Prop := (encode i).map opField = opcodeOf i

theorem load (rd : RegIdx) (imm : Field8) : Statement (.load rd imm) :=
  congrArg some (opField_packRI _ rd imm)
theorem store (rs : RegIdx) (addr : Field8) : Statement (.store rs addr) :=
  congrArg some (opField_packRI _ rs addr)
theorem add (rd rs1 rs2 : RegIdx) : Statement (.add rd rs1 rs2) :=
  congrArg some (opField_packRRR _ rd rs1 rs2)
theorem sub (rd rs1 rs2 : RegIdx) : Statement (.sub rd rs1 rs2) :=
  congrArg some (opField_packRRR _ rd rs1 rs2)
theorem mul (rd rs1 rs2 : RegIdx) : Statement (.mul rd rs1 rs2) :=
  congrArg some (opField_packRRR _ rd rs1 rs2)
theorem div (rd rs1 rs2 : RegIdx) : Statement (.div rd rs1 rs2) :=
  congrArg some (opField_packRRR _ rd rs1 rs2)
theorem jmp (addr : Addr) : Statement (.jmp addr) :=
  congrArg some (opField_packA12 _ addr)
theorem jmpz (rc : RegIdx) (addr : Field8) : Statement (.jmpz rc addr) :=
  congrArg some (opField_packRI _ rc addr)
theorem jmpnz (rc : RegIdx) (addr : Field8) : Statement (.jmpnz rc addr) :=
  congrArg some (opField_packRI _ rc addr)
theorem halt : Statement .halt :=
  congrArg some (opField_packA12 _ 0#12)
theorem unknown : Statement .unknown := rfl

end Sys2Proof.Laws.EncodeOpcode
end

