-- ==== Sys2Proof/Tests/Slice0.lean ====
section
/-! SUPPORT. Tests and witnesses. Expected results are those of spec/95_test_vectors.md (the section is
named beside each group) or are worked by hand from the rules named. -/

namespace Sys2Proof.Tests

open Sys2Proof Sys2Proof.Machine

/-! ### Helpers -/

/-- A running state at `pc` with the listed memory cells and registers. -/
def stateAt (pc : Addr) (mem : Memory) (regs : List (RegIdx × Word)) : State :=
  regs.foldl (fun s p => s.setReg p.1 p.2) { State.reset with pc := pc, mem := mem }

/-- A property of the next state of an outcome; false when there is none. -/
def nextIs (o : Host.Outcome State Fault Refusal) (p : State → Bool) : Bool :=
  match o with
  | .next t => p t
  | .fault _ => false
  | .refused _ => false

/-! ### WellFormed: each check refuses an ill-formed term -/

theorem test_wellFormed_refuses_unknown : Instr.unknown.wellFormed = false := by decide
theorem test_wellFormed_takes_the_rest : (Instr.div 3 1 2).wellFormed = true := by decide
theorem test_raw_count_refused : (RawInstr.mk .add [1, 2]).wellFormed = false := by decide
theorem test_raw_register_range_refused : (RawInstr.mk .add [1, 2, 16]).wellFormed = false := by decide
theorem test_raw_immediate_range_refused : (RawInstr.mk .load [1, 300]).wellFormed = false := by decide
theorem test_raw_short_address_range_refused : (RawInstr.mk .jmpz [1, 256]).wellFormed = false := by decide
theorem test_raw_address_range_refused : (RawInstr.mk .jmp [4096]).wellFormed = false := by decide
theorem test_raw_limits_taken : (RawInstr.mk .store [15, 255]).wellFormed = true := by decide

/-! ### Decode: words written out from the encodings of 41 to 44 -/

theorem test_decode_load : decode 0b0001_1010_1100_0101#16 = .load 10 0xC5 := by decide
theorem test_decode_store : decode 0b0010_0100_0000_0110#16 = .store 4 6 := by decide
theorem test_decode_add : decode 0b0011_0011_0001_0010#16 = .add 3 1 2 := by decide
theorem test_decode_sub : decode 0b0100_0011_0000_0001#16 = .sub 3 0 1 := by decide
theorem test_decode_mul : decode 0b0101_1111_0111_1000#16 = .mul 15 7 8 := by decide
theorem test_decode_div : decode 0b0110_0011_0001_0000#16 = .div 3 1 0 := by decide
theorem test_decode_jmp : decode 0b1000_1010_0101_1100#16 = .jmp 0xA5C := by decide
theorem test_decode_jmpz : decode 0b1001_0001_0000_0101#16 = .jmpz 1 5 := by decide
theorem test_decode_jmpnz : decode 0b1010_0100_1111_1111#16 = .jmpnz 4 255 := by decide
theorem test_decode_halt : decode 0b1111_0001_0010_0011#16 = .halt := by decide
theorem test_decode_unknown :
    decode 0b0000_1111_1111_1111#16 = .unknown ∧ decode 0b0111_1010_1011_1100#16 = .unknown ∧
    decode 0xB000#16 = .unknown ∧ decode 0xC000#16 = .unknown ∧ decode 0xD000#16 = .unknown ∧
    decode 0xE000#16 = .unknown := by decide
theorem test_encode_halt : encode .halt = some 0xF000#16 := by decide
theorem test_tableWord : decodeTableWord 16 0x2406 = some (.store 4 6) := by decide
theorem test_tableWord_short : decodeTableWord 8 0x12 = some .unknown := by decide
theorem test_tableWord_wide : decodeTableWord 32 0x12406 = none := by decide

/-! ### Instructions (95_test_vectors.md, L2), one step each -/

theorem test_load_255 :
    nextIs (exec (.load 1 255) (stateAt 10 [] [])) (fun t => t.reg 1 == 255 && t.pc == 11) = true := by decide
theorem test_load_r0_is_not_wired :
    nextIs (exec (.load 0 7) (stateAt 10 [] [])) (fun t => t.reg 0 == 7) = true := by decide
theorem test_store_negative :
    nextIs (exec (.store 3 200) (stateAt 4 [] [(3, -7)])) (fun t => t.readMem 200 == 0xFFF9) = true := by decide
theorem test_store_zero_removes_the_cell :
    nextIs (exec (.store 1 10) (stateAt 4 [(10, 5)] [(1, 65536)]))
      (fun t => t.readMem 10 == 0 && t.mem == []) = true := by decide
theorem test_add_wraps :
    nextIs (exec (.add 3 1 2) (stateAt 0 [] [(1, 2147483647), (2, 1)]))
      (fun t => t.reg 3 == 0x80000000) = true := by decide
theorem test_add_same_register :
    nextIs (exec (.add 1 1 1) (stateAt 0 [] [(1, 5)])) (fun t => t.reg 1 == 10) = true := by decide
theorem test_sub_negative :
    nextIs (exec (.sub 3 0 1) (stateAt 0 [] [(1, 7)])) (fun t => t.reg 3 == 0xFFFFFFF9) = true := by decide
theorem test_sub_wraps :
    nextIs (exec (.sub 3 1 2) (stateAt 0 [] [(1, 0x80000000), (2, 1)]))
      (fun t => t.reg 3 == 0x7FFFFFFF) = true := by decide
theorem test_mul_keeps_low_half :
    nextIs (exec (.mul 3 1 2) (stateAt 0 [] [(1, 65536), (2, 32768)]))
      (fun t => t.reg 3 == 0x80000000) = true := by decide
theorem test_mul_negative :
    nextIs (exec (.mul 3 1 2) (stateAt 0 [] [(1, -3), (2, 4)])) (fun t => t.reg 3 == 0xFFFFFFF4) = true := by
  decide
theorem test_div_truncates_toward_zero :
    divValue (-7) 2 = -3 ∧ divValue 7 (-2) = -3 ∧ divValue (-7) (-2) = 3 ∧ divValue (-1) 2 = 0 ∧
    divValue 0x80000000 (-1) = 0x80000000 := by decide
theorem test_div_by_zero_at_4095 :
    nextIs (exec (.div 3 1 2) (stateAt 4095 [] [(1, 9), (3, 4)]))
      (fun t => t.status == .faulted .divisionByZero && t.reg 3 == 4 && t.pc == 4095 && t.steps == 0) = true := by
  decide
theorem test_jmp_from_4095 :
    nextIs (exec (.jmp 10) (stateAt 4095 [] [])) (fun t => t.pc == 10 && t.status == .running) = true := by
  decide
theorem test_jmpz_tests_all_bits :
    nextIs (exec (.jmpz 1 5) (stateAt 10 [] [(1, 65536)])) (fun t => t.pc == 11) = true := by decide
theorem test_jmpz_taken_at_4095 :
    nextIs (exec (.jmpz 1 0) (stateAt 4095 [] [])) (fun t => t.pc == 0 && t.status == .running) = true := by
  decide
theorem test_jmpnz_negative :
    nextIs (exec (.jmpnz 4 7) (stateAt 10 [] [(4, -3)])) (fun t => t.pc == 7) = true := by decide
theorem test_jmpnz_not_taken_at_4095 :
    nextIs (exec (.jmpnz 4 7) (stateAt 4095 [] []))
      (fun t => t.status == .faulted .programCounterOverflow && t.pc == 4095) = true := by decide
theorem test_halt_at_4095 :
    nextIs (step (stateAt 4095 [(4095, 0xF123)] []))
      (fun t => t.status == .halted && t.pc == 4095 && t.steps == 1) = true := by decide
theorem test_unknown_at_0 :
    nextIs (step (stateAt 0 [(0, 0x7ABC)] []))
      (fun t => t.status == .faulted .unknownOpcode && t.pc == 0 && t.steps == 0) = true := by decide

/-! ### The cycle (95_test_vectors.md, Cycle, budget and PC overflow) -/

theorem test_overflow_keeps_the_write :
    nextIs (step (stateAt 4095 [(4095, 0x1101)] []))
      (fun t => t.status == .faulted .programCounterOverflow && t.reg 1 == 1 && t.pc == 4095 &&
        t.steps == 0) = true := by decide
theorem test_budget_before_unknown :
    nextIs (step { stateAt 0 [(0, 0x7ABC)] [] with budget := some 0 })
      (fun t => t.status == .faulted .stepBudgetExceeded && t.pc == 0) = true := by decide
theorem test_reset_faults_on_empty_memory :
    nextIs (step State.reset) (fun t => t.status == .faulted .unknownOpcode) = true := by decide
theorem test_fetchWord_from_reset :
    nextIs (step (State.reset.withFetchWord 16 0x1105)) (fun t => t.reg 1 == 5 && t.pc == 1) = true := by decide
theorem test_core_step_is_step : Sys2Proof.core.step Sys2Proof.core.reset = step State.reset := rfl

/-! ### Host operations, assembler and formats -/

theorem test_new_loads_in_order :
    (match engineNew [0x1105, 0xF000] (some 7) with
      | .ok s => s.readMem 0 == 0x1105 && s.readMem 1 == 0xF000 && s.readMem 2 == 0 && s.budget == some 7
      | .error _ => false) = true := by decide
theorem test_read_out_of_range :
    readRegister 16 State.reset = .error .invalidRegister ∧
    readMemory 4096 State.reset = .error .invalidAddress := by decide
theorem test_assemble_labels :
    assemble "JMP end\n# skip\nLOAD r1, 7\nend:\nhalt".toList =
      .ok ([0x8002, 0x1107, 0xF000], [("end".toList, 2)]) := by decide
theorem test_label_at_4095_binds : collectLabels [.label ['x']] 4095 [] = .ok [(['x'], 4095)] := by decide
theorem test_label_at_4096_refused :
    collectLabels [.label ['x']] 4096 [] = .error .operandOutOfRange := by decide
theorem test_assemble_count : assemble "ADD R1, R2".toList = .error .unresolvedOperand := by decide
theorem test_text_format : wordOfLine "0001000100000101".toList = some 0x1105 := by decide
theorem test_packed_format : wordsOfBytes [0x11, 0x05] = some [0x1105] := by decide

/-! ### Witnesses: a state and operands that meet each statement's hypotheses together -/

/-- Running at 10 over the word `STORE R4, 11`. -/
def atStore : State := stateAt 10 [(10, 0x240B)] [(4, 0xF000)]

/-- Running at 4095 over the word `LOAD R1, 1`. -/
def atLast : State := stateAt 4095 [(4095, 0x1101)] []

/-- Running at 0 over `LOAD R1, 5` and `HALT`. -/
def twoWords : State := stateAt 0 [(0, 0x1105), (1, 0xF000)] []

/-- Running at 0 over `JMP 0`. -/
def selfJump : State := stateAt 0 [(0, 0x8000)] []

/-- `twoWords` after its first step. -/
def secondWord : State := { stateAt 1 [(0, 0x1105), (1, 0xF000)] [(1, 5)] with steps := 1 }

theorem step_twoWords : step twoWords = .next secondWord := by rfl
theorem run_twoWords : hostRun 2 twoWords = some (.halted, { secondWord with status := .halted, steps := 2 }) := by
  decide

theorem witness_DecodeOfEncode : (Instr.jmp 4095).wellFormed = true := by decide
theorem witness_EncodeOfDecode_operands :
    (0x8FFF#16).extractLsb' 12 4 ∈ [0b0001#4, 0b0010#4, 0b0011#4, 0b0100#4, 0b0101#4, 0b0110#4, 0b1000#4,
      0b1001#4, 0b1010#4] := by decide
theorem witness_EncodeOfDecode_halt :
    (0xF000#16).extractLsb' 12 4 = 0b1111#4 ∧ (0xFFFF#16).extractLsb' 12 4 = 0b1111#4 := by decide
theorem witness_StepRuns :
    twoWords.status = .running ∧ (∀ b, twoWords.budget = some b → twoWords.steps ≠ b.toNat) ∧
    decode (twoWords.readMem twoWords.pc) = .load 1 5 :=
  ⟨rfl, by rw [show twoWords.budget = none from rfl]; simp, by decide⟩
theorem witness_UsedUpBudget :
    ({ secondWord with budget := some 1 } : State).status = .running ∧
    ({ secondWord with budget := some 1 } : State).budget = some 1 ∧
    ({ secondWord with budget := some 1 } : State).steps = (1 : BitVec 64).toNat := by decide
theorem witness_Terminal :
    ({ twoWords with status := .halted } : State).status ≠ .running ∧
    ({ twoWords with status := .faulted .unknownOpcode } : State).status ≠ .running := by decide
theorem witness_NeverStuck : twoWords.status = .running := by decide
theorem witness_PlacedWord : Memory.wf twoWords.mem = true := by decide
theorem witness_pc_cases :
    twoWords.pc ≠ 4095#12 ∧ (stateAt 4094 [] []).pc ≠ 4095#12 ∧ atLast.pc = 4095#12 := by decide
theorem witness_Store : Memory.wf atStore.mem = true ∧ Memory.wf atLast.mem = true := by decide
theorem witness_Div_nonzero : (stateAt 0 [] [(2, 1)]).reg 2 ≠ 0#32 := by decide
theorem witness_Div_zero : (stateAt 0 [] []).reg 2 = 0#32 := by decide
theorem witness_Jmpz_taken : ((stateAt 4095 [] []).reg 1).toNat = 0 := by decide
theorem witness_Jmpz_not_taken :
    ((stateAt 10 [] [(1, 1)]).reg 1).toNat ≠ 0 ∧ (stateAt 10 [] [(1, 1)]).pc ≠ 4095#12 := by decide
theorem witness_Jmpz_overflow :
    ((stateAt 4095 [] [(1, 1)]).reg 1).toNat ≠ 0 ∧ (stateAt 4095 [] [(1, 1)]).pc = 4095#12 := by decide
theorem witness_Jmpnz_taken : ((stateAt 4095 [] [(4, -3)]).reg 4).toNat ≠ 0 := by decide
theorem witness_Jmpnz_not_taken :
    ((stateAt 10 [] []).reg 4).toNat = 0 ∧ (stateAt 10 [] []).pc ≠ 4095#12 := by decide
theorem witness_Jmpnz_overflow :
    ((stateAt 4095 [] []).reg 4).toNat = 0 ∧ (stateAt 4095 [] []).pc = 4095#12 := by decide
theorem witness_Reserved :
    (0xEFFF#16).extractLsb' 12 4 ∈ [0b0000#4, 0b0111#4, 0b1011#4, 0b1100#4, 0b1101#4, 0b1110#4] := by decide
theorem witness_DestinationIsSource : (stateAt 0 [] [(2, 5)]).reg 2 ≠ 0#32 := by decide
theorem witness_Sequential_advance :
    requestsNext (.jmpz 1 5) (stateAt 10 [] [(1, 1)]) ∧
    (∃ t, exec (.jmpz 1 5) (stateAt 10 [] [(1, 1)]) = .next t) ∧ (stateAt 10 [] [(1, 1)]).pc ≠ 4095#12 :=
  ⟨by simp only [requestsNext]; decide, ⟨_, rfl⟩, by decide⟩
theorem witness_Sequential_overflow :
    requestsNext (.load 1 1) atLast ∧ (∃ t, exec (.load 1 1) atLast = .next t) ∧ atLast.pc = 4095#12 :=
  ⟨trivial, ⟨_, rfl⟩, rfl⟩
theorem witness_StepsCount_running :
    ∃ t, twoWords.status = .running ∧ step twoWords = .next t ∧ t.status = .running :=
  ⟨_, rfl, step_twoWords, rfl⟩
theorem witness_StepsCount_halted :
    ∃ t, secondWord.status = .running ∧ step secondWord = .next t ∧ t.status = .halted := ⟨_, rfl, rfl, rfl⟩
theorem witness_StepsCount_faulted :
    ∃ t, State.reset.status = .running ∧ step State.reset = .next t ∧ t.status = .faulted .unknownOpcode :=
  ⟨_, rfl, rfl, rfl⟩
theorem witness_FrameOfRegisterWriters :
    ∃ t, (Instr.div 3 1 2).destination = some 3 ∧ exec (.div 3 1 2) (stateAt 0 [] [(1, 6), (2, 3)]) = .next t :=
  ⟨_, rfl, rfl⟩
theorem witness_FrameOfStore : ∃ t, exec (.store 4 11) atStore = .next t := ⟨_, rfl⟩
theorem witness_FrameOfControl : ∃ t, exec (.jmpnz 4 7) atStore = .next t := ⟨_, rfl⟩
theorem witness_RegistersKeep :
    ∃ t, step twoWords = .next t ∧ ¬writesRegister 2 twoWords :=
  ⟨_, step_twoWords, fun h => absurd h.2.2.1 (by decide)⟩
theorem witness_RegistersKeep_usedUp :
    ∃ t, step { twoWords with budget := some 0 } = .next t ∧
      ¬writesRegister 1 { twoWords with budget := some 0 } :=
  ⟨_, rfl, fun h => absurd h.2.1 (by decide)⟩
theorem witness_RegistersKeep_divByZero :
    ∃ t, step (stateAt 0 [(0, 0x6310)] []) = .next t ∧ ¬writesRegister 3 (stateAt 0 [(0, 0x6310)] []) :=
  ⟨_, rfl, fun h => h.2.2.2 3 1 0 (by decide) (by decide)⟩
theorem witness_writesRegister : writesRegister 1 twoWords :=
  ⟨rfl, by decide, by decide, fun rd rs1 rs2 h => by
    rw [show decode (fetchWord twoWords) = .load 1 5 by decide] at h; cases h⟩
theorem witness_RegistersKeep_load : ∃ t, loadProgram [0xF000] twoWords = .ok t := ⟨_, rfl⟩
theorem witness_ReadOnlySources :
    ∃ t u, (5 : RegIdx) ∉ (Instr.add 3 1 2).sources ∧ exec (.add 3 1 2) twoWords = .next t ∧
      exec (.add 3 1 2) (twoWords.setReg 5 9) = .next u := ⟨_, _, by decide, rfl, rfl⟩
theorem witness_OnlyStores :
    ∃ t, step twoWords = .next t ∧ (∀ rs addr, decode (fetchWord twoWords) ≠ .store rs addr) ∧
      256 ≤ (256 : Addr).toNat :=
  ⟨_, step_twoWords, fun rs addr => by rw [show decode (fetchWord twoWords) = .load 1 5 by decide]; simp, by decide⟩
theorem witness_StoreToNext :
    atStore.status = .running ∧
    (∀ b, atStore.budget = some b → atStore.steps ≠ b.toNat ∧ atStore.steps + 1 ≠ b.toNat) ∧
    Memory.wf atStore.mem = true ∧ decode (fetchWord atStore) = .store 4 11 ∧
    atStore.pc.toNat + 1 = (11 : Field8).toNat :=
  ⟨rfl, by rw [show atStore.budget = none from rfl]; simp, by decide, by decide, by decide⟩
theorem witness_StatusAfterStep : ∃ t, atLast.status = .running ∧ step atLast = .next t := ⟨_, rfl, rfl⟩
theorem witness_FaultLeaves_other :
    ∃ t, State.reset.status = .running ∧ step State.reset = .next t ∧ t.status = .faulted .unknownOpcode ∧
      Fault.unknownOpcode ≠ .programCounterOverflow := ⟨_, rfl, rfl, rfl, by decide⟩
theorem witness_FaultLeaves_overflow :
    ∃ t, atLast.status = .running ∧ step atLast = .next t ∧ t.status = .faulted .programCounterOverflow :=
  ⟨_, rfl, rfl, rfl⟩
theorem witness_StepKeepsInvariant : ∃ t, twoWords.Invariant ∧ step twoWords = .next t :=
  ⟨_, ⟨by decide, by decide, trivial⟩, step_twoWords⟩
theorem witness_New : ∃ s, engineNew [0x1105, 0xF000] (some 13) = .ok s := ⟨_, rfl⟩
theorem witness_Canonical :
    Memory.wf [(3, 1)] = true ∧ (∀ a : Addr, Memory.read [(3, 1)] a.toNat = Memory.read [(3, 1)] a.toNat) :=
  ⟨by decide, fun _ => rfl⟩
theorem witness_UnwrittenRegister :
    ∃ s t, engineNew [0x1105, 0xF000] none = .ok s ∧ RunsWithoutWriting 2 s t ∧ t.pc = 1 :=
  ⟨twoWords, secondWord, rfl, .snoc .none (fun h => absurd h.2.2.1 (by decide)) step_twoWords, rfl⟩
theorem witness_RunUnderBudget :
    ({ secondWord with budget := some 1 } : State).budget = some 1 ∧
    ({ secondWord with budget := some 1 } : State).steps ≤ (1 : BitVec 64).toNat := by decide
theorem witness_BudgetThreshold_covered :
    twoWords.budget = none ∧ twoWords.status = .running ∧
    hostRun 2 twoWords = some (.halted, { secondWord with status := .halted, steps := 2 }) ∧
    twoWords.steps ≤ (2 : BitVec 64).toNat ∧ 2 ≤ (2 : BitVec 64).toNat :=
  ⟨rfl, rfl, run_twoWords, by decide, by decide⟩
theorem witness_BudgetThreshold_smaller :
    twoWords.budget = none ∧ twoWords.status = .running ∧
    hostRun 2 twoWords = some (.halted, { secondWord with status := .halted, steps := 2 }) ∧
    twoWords.steps ≤ (1 : BitVec 64).toNat ∧ (1 : BitVec 64).toNat < 2 :=
  ⟨rfl, rfl, run_twoWords, by decide, by decide⟩
theorem witness_SelfJump :
    selfJump.status = .running ∧ selfJump.budget = none ∧ decode (fetchWord selfJump) = .jmp selfJump.pc := by
  decide
theorem witness_RunIsStep_terminal :
    ({ twoWords with status := .halted } : State).status.outcome = some .halted := by decide
theorem witness_RunIsStep_running :
    twoWords.status = .running ∧ hostStep twoWords = some (secondWord.status, secondWord) := by decide
theorem witness_RunIsStep_longer : ∃ x, hostRun 2 twoWords = some x := ⟨_, run_twoWords⟩
theorem witness_program_lengths :
    [0x1105#16, 0xF000#16].length ≤ 4096 ∧ 4096 < (List.replicate 4097 0x1105#16).length := by
  rw [List.length_replicate]; decide
theorem witness_LoadProgram : Memory.wf twoWords.mem = true := by decide
theorem witness_StatusCodes :
    (Status.halted).code = (Status.halted).code ∧ (Status.halted).reasonCode = (Status.halted).reasonCode := by
  decide
theorem witness_TruncDiv : (-2 : Int) ≠ 0 ∧ 0 ≤ (-7 : Int) * -2 ∧ (7 : Int) * -2 ≤ 0 := by decide
theorem witness_ResultsThatFit :
    (-2147483648 : Int) ≤ 9 ∧ (9 : Int) ≤ 2147483647 ∧
    (9 : Int) = ((stateAt 0 [] [(1, 6), (2, 3)]).reg 1).toInt + ((stateAt 0 [] [(1, 6), (2, 3)]).reg 2).toInt ∧
    (3 : Int) = ((stateAt 0 [] [(1, 6), (2, 3)]).reg 1).toInt - ((stateAt 0 [] [(1, 6), (2, 3)]).reg 2).toInt ∧
    (18 : Int) = ((stateAt 0 [] [(1, 6), (2, 3)]).reg 1).toInt * ((stateAt 0 [] [(1, 6), (2, 3)]).reg 2).toInt ∧
    (∃ t, exec (.add 3 1 2) (stateAt 0 [] [(1, 6), (2, 3)]) = .next t) ∧
    (∃ t, exec (.sub 3 1 2) (stateAt 0 [] [(1, 6), (2, 3)]) = .next t) ∧
    ∃ t, exec (.mul 3 1 2) (stateAt 0 [] [(1, 6), (2, 3)]) = .next t :=
  ⟨by decide, by decide, by decide, by decide, by decide, ⟨_, rfl⟩, ⟨_, rfl⟩, ⟨_, rfl⟩⟩
theorem witness_ResultsThatFit_lowest :
    (-2147483648 : Int) = ((stateAt 0 [] [(1, 0x80000000)]).reg 1).toInt +
      ((stateAt 0 [] [(1, 0x80000000)]).reg 2).toInt := by decide
theorem witness_Division_exact :
    ∃ t, (stateAt 0 [] [(1, -7), (2, 2)]).reg 2 ≠ 0#32 ∧
      exec (.div 3 1 2) (stateAt 0 [] [(1, -7), (2, 2)]) = .next t ∧
      ¬(((stateAt 0 [] [(1, -7), (2, 2)]).reg 1).toInt = -2147483648 ∧
        ((stateAt 0 [] [(1, -7), (2, 2)]).reg 2).toInt = -1) := ⟨_, by decide, rfl, by decide⟩
theorem witness_Division_overflow :
    ∃ t, (stateAt 0 [] [(1, 0x80000000), (2, -1)]).reg 2 ≠ 0#32 ∧
      exec (.div 3 1 2) (stateAt 0 [] [(1, 0x80000000), (2, -1)]) = .next t ∧
      ((stateAt 0 [] [(1, 0x80000000), (2, -1)]).reg 1).toInt = -2147483648 ∧
      ((stateAt 0 [] [(1, 0x80000000), (2, -1)]).reg 2).toInt = -1 := ⟨_, by decide, rfl, by decide, by decide⟩
theorem witness_Assembled :
    assemble "x:\nJMP x".toList = .ok ([0x8000], [(['x'], 0)]) ∧ (0x8000 : MemWord) ∈ [(0x8000 : MemWord)] :=
  ⟨by decide, by decide⟩
theorem witness_AssembledLines :
    assemble "HALT\nx:\n# c\nJMP x\ny:".toList = .ok ([0xF000, 0x8001], [(['x'], 1), (['y'], 2)]) ∧
    (instructionLines (programLines "HALT\nx:\n# c\nJMP x\ny:".toList))[1]? = some ["JMP".toList, ['x']] ∧
    (programLines "HALT\nx:\n# c\nJMP x\ny:".toList)[4]? = some (.label ['y']) := by decide
theorem witness_BadLabels_duplicate :
    (programLines "a:\nHALT\na:".toList)[0]? = some (.label ['a']) ∧
    (programLines "a:\nHALT\na:".toList)[2]? = some (.label ['a']) ∧
    (instructionLines (programLines "a:\nHALT\na:".toList)).length < 4096 := by decide
/-- `n` instruction lines and then the label line `x:`. -/
def labelAfter : Nat → Text
  | 0 => ['x', ':']
  | n + 1 => 'a' :: '\n' :: labelAfter n

theorem programLines_labelAfter (n : Nat) :
    programLines (labelAfter n) = List.replicate n (.instruction [['a']]) ++ [.label ['x']] := by
  induction n with
  | zero => decide
  | succ n ih =>
    rw [show programLines (labelAfter (n + 1)) = .instruction [['a']] :: programLines (labelAfter n) from rfl, ih]
    rfl

theorem labelAfter_late (n : Nat) :
    (programLines (labelAfter n))[n]? = some (.label ['x']) ∧
    n ≤ instructionsBefore (programLines (labelAfter n)) n ∧
    ∀ (q r : Nat) (name : Text), (programLines (labelAfter n))[q]? = some (.label name) →
      (programLines (labelAfter n))[r]? = some (.label name) → q = r := by
  rw [programLines_labelAfter]
  refine ⟨by simp, ?_, fun q r name hq hr => ?_⟩
  · rw [instructionsBefore, List.take_left' (by simp), instructionLines, List.filterMap_replicate]
    simp [SourceLine.tokens]
  · have at_n : ∀ p, (List.replicate n (SourceLine.instruction [['a']]) ++ [.label ['x']])[p]? =
        some (.label name) → p = n := by
      intro p h
      rw [List.getElem?_append] at h
      split at h
      · rw [List.getElem?_replicate] at h; split at h <;> cases h
      · obtain ⟨hlt, -⟩ := List.getElem?_eq_some_iff.mp h
        simp at *
        omega
    rw [at_n q hq, at_n r hr]

theorem witness_BadLabels_late :
    (programLines (labelAfter 4096))[4096]? = some (.label ['x']) ∧
    4096 ≤ instructionsBefore (programLines (labelAfter 4096)) 4096 ∧
    ∀ (q r : Nat) (name : Text), (programLines (labelAfter 4096))[q]? = some (.label name) →
      (programLines (labelAfter 4096))[r]? = some (.label name) → q = r := labelAfter_late 4096

theorem witness_InstructionLines_mnemonics :
    mnemonicOf "loop:".toList = none ∧ mnemonicOf "Jmp".toList = some .jmp ∧
    mnemonicOf "halt".toList = some .halt := by decide
theorem witness_InstructionLines_operands :
    [['1', '2']].length = Mnemonic.jmp.limits.length ∧ ([] : List Text).length ≠ Mnemonic.jmp.limits.length ∧
    [['1', '2']].map (fun t => (registerValue t).or ((labelValue [] t).or (literalValue t))) = [12].map some ∧
    registerValue ['-', '1'] = none ∧ labelValue [] ['-', '1'] = none ∧ literalValue ['-', '1'] = none := by decide
theorem witness_EncodedOperands :
    (Mnemonic.store, 2) ∈ [(Mnemonic.load, 1), (.store, 2), (.jmpz, 9), (.jmpnz, 10)] ∧
    (15 ≤ 15 ∧ 255 ≤ 255) ∧ (15 < 16 ∨ 255 < 0) ∧
    (Mnemonic.div, 6) ∈ [(Mnemonic.add, 3), (.sub, 4), (.mul, 5), (.div, 6)] ∧
    (15 ≤ 15 ∧ 0 ≤ 15 ∧ 15 ≤ 15) ∧ (15 < 0 ∨ 15 < 0 ∨ 15 < 16) ∧ 4095 ≤ 4095 ∧ 4095 < 4096 := by decide
theorem witness_IgnoreCase : "load".toList.map Char.toUpper = "LoAd".toList.map Char.toUpper := by decide
theorem witness_Accessor_bounds : 16 ≤ 16 ∧ 4096 ≤ 4096 := by decide

end Sys2Proof.Tests
end

section
/-! The truncated quotient of rule R12: its magnitude and its sign. -/

namespace Sys2Proof.Machine

/-- The two signs of rule R12's formula are together the sign of the product. -/
theorem truncDiv_eq_sign_mul (a b : Int) :
    truncDiv a b = (a * b).sign * ((a.natAbs / b.natAbs : Nat) : Int) := by
  rw [truncDiv, Int.sign_mul]

/-- Rule R12's formula over the rationals. -/
theorem truncDiv_eq_floor (a b : Int) :
    truncDiv a b = a.sign * b.sign * ⌊(a.natAbs : ℚ) / (b.natAbs : ℚ)⌋ := by
  rw [truncDiv, Rat.floor_natCast_div_natCast, Int.natCast_div]

@[simp] theorem natAbs_truncDiv (a b : Int) : (truncDiv a b).natAbs = a.natAbs / b.natAbs := by
  rw [truncDiv_eq_tdiv]
  exact Int.natAbs_tdiv a b

theorem truncDiv_nonneg {a b : Int} (h : 0 ≤ a * b) : 0 ≤ truncDiv a b := by
  rw [truncDiv_eq_sign_mul]
  exact Int.mul_nonneg (Int.sign_nonneg_iff.mpr h) (Int.natCast_nonneg _)

theorem truncDiv_nonpos {a b : Int} (h : a * b ≤ 0) : truncDiv a b ≤ 0 := by
  rw [truncDiv_eq_sign_mul]
  exact Int.mul_nonpos_of_nonpos_of_nonneg (Int.sign_nonpos_iff.mpr h) (Int.natCast_nonneg _)

/-- Settles O46: the magnitude is the whole quotient of the magnitudes, the sign that of the product. -/
theorem truncDivRoundsTowardZero : Obligations.TruncDivRoundsTowardZero := by
  intro a b hb
  have magnitude_pos : 0 < b.natAbs := Int.natAbs_pos.mpr hb
  refine ⟨truncDiv_eq_floor a b, ?_, ?_, truncDiv_nonneg, truncDiv_nonpos⟩
  · rw [natAbs_truncDiv]
    exact Nat.div_mul_le_self _ _
  · rw [natAbs_truncDiv]
    exact (Nat.div_lt_iff_lt_mul magnitude_pos).mp (Nat.lt_succ_self _)

end Sys2Proof.Machine
end

section
/-! Registers between writes (rules R23, R24, R40): what keeps a register, over one instruction, one step,
one run and the host's operations. -/

namespace Sys2Proof.Machine

/-! ### The execute stage -/

@[simp] theorem arithmetic_reg_other (f : Word → Word → Word) {rd r : RegIdx} (h : r ≠ rd)
    (rs1 rs2 : RegIdx) (s : State) : (arithmetic f rd rs1 rs2 s).reg r = s.reg r := by
  rw [arithmetic, retire_reg, reg_setReg_other _ _ h]

theorem exec_div_zero {rs2 : RegIdx} {s : State} (h : s.reg rs2 = 0#32) (rd rs1 : RegIdx) :
    exec (.div rd rs1 rs2) s = .next (raiseFault .divisionByZero s) := by
  rw [exec_div, if_pos ((isZero_iff _).mpr h)]

/-- Rule R23: an instruction writes no register but its destination. -/
theorem exec_reg_of_destination_ne {i : Instr} {s t : State} {r : RegIdx} (h : exec i s = .next t)
    (hd : i.destination ≠ some r) : t.reg r = s.reg r := by
  have other {rd : RegIdx} (hrd : some rd ≠ some r) : r ≠ rd := fun e => hrd (congrArg some e.symm)
  cases i with
  | load rd imm =>
    cases h
    rw [retire_reg, reg_setReg_other _ _ (other hd)]
  | add rd rs1 rs2 | sub rd rs1 rs2 | mul rd rs1 rs2 =>
    cases h
    exact arithmetic_reg_other _ (other hd) rs1 rs2 s
  | div rd rs1 rs2 =>
    cases h
    split
    · exact raiseFault_reg _ s r
    · exact arithmetic_reg_other _ (other hd) rs1 rs2 s
  | store rs addr | jmp addr | jmpz rc addr | jmpnz rc addr | halt =>
    cases h
    simp
  | unknown =>
    cases h
    exact raiseFault_reg _ s r

/-! ### The step -/

/-- Why a step that runs an instruction does not write `r`: another destination, or a DIV by zero. -/
theorem destination_ne_or_div_zero {s : State} {r : RegIdx} (hr : s.status = .running)
    (hb : budgetExhausted s = false) (hw : ¬writesRegister r s) :
    (decode (fetchWord s)).destination ≠ some r ∨
    ∃ rd rs1 rs2, decode (fetchWord s) = .div rd rs1 rs2 ∧ s.reg rs2 = 0#32 := by
  refine or_iff_not_imp_left.mpr fun hd => ?_
  by_contra no_div_zero
  exact hw ⟨hr, hb, not_not.mp hd, fun rd rs1 rs2 hi hz => no_div_zero ⟨rd, rs1, rs2, hi, hz⟩⟩

theorem step_reg_of_not_writesRegister {s t : State} {r : RegIdx} (h : step s = .next t)
    (hw : ¬writesRegister r s) : t.reg r = s.reg r := by
  obtain ⟨-, rfl⟩ | ⟨-, -, rfl⟩ | ⟨hr, hb, hx⟩ := step_cases h
  · rfl
  · exact raiseFault_reg _ s r
  · obtain hd | ⟨rd, rs1, rs2, hi, hz⟩ := destination_ne_or_div_zero hr hb hw
    · exact exec_reg_of_destination_ne hx hd
    · rw [hi, exec_div_zero hz] at hx
      cases hx
      exact raiseFault_reg _ s r

theorem RunsWithoutWriting.reg_eq {r : RegIdx} {s t : State} (run : RunsWithoutWriting r s t) :
    t.reg r = s.reg r := by
  induction run with
  | none => rfl
  | snoc _ other last ih => exact (step_reg_of_not_writesRegister last other).trans ih

/-! ### The host's operations -/

theorem loadProgram_reg {words : List MemWord} {s t : State} (h : loadProgram words s = .ok t)
    (r : RegIdx) : t.reg r = s.reg r := by
  unfold loadProgram at h
  split at h
  · cases h
    rfl
  · cases h

theorem engineNew_reg {program : List MemWord} {budget : Option (BitVec 64)} {s : State}
    (h : engineNew program budget = .ok s) (r : RegIdx) : s.reg r = 0#32 := by
  unfold engineNew at h
  split at h
  · cases h
    exact reset_reg r
  · cases h

/-! ### The obligations -/

/-- Settles O26: a step that runs an instruction writes at most its destination, and a DIV by zero or a step
that runs none writes nothing; a program load touches memory only. -/
theorem registersKeepTheirValues : Obligations.RegistersKeepTheirValues :=
  ⟨fun _ _ _ => step_reg_of_not_writesRegister, fun _ _ _ => loadProgram_reg⟩

/-- Settles O37: `New` sets the register to zero, and by induction on the run it keeps that value. -/
theorem unwrittenRegisterReadsZero : Obligations.UnwrittenRegisterReadsZero := by
  intro program budget s t r built run
  rw [run.reg_eq, engineNew_reg built]

end Sys2Proof.Machine
end

section
/-! Decoding a packed word (rule R80): one equation for each opcode with its operands, and one for the
words of the reserved opcodes. -/

namespace Sys2Proof

/-! ### Format RI -/

section RI
variable (r : RegIdx) (k8 : Field8)

@[simp] theorem decode_packRI_load : decode (packRI 0b0001#4 r k8) = .load r k8 := by
  simp only [decode, opField_packRI, fieldA_packRI, fieldK8_packRI]

@[simp] theorem decode_packRI_store : decode (packRI 0b0010#4 r k8) = .store r k8 := by
  simp only [decode, opField_packRI, fieldA_packRI, fieldK8_packRI]

@[simp] theorem decode_packRI_jmpz : decode (packRI 0b1001#4 r k8) = .jmpz r k8 := by
  simp only [decode, opField_packRI, fieldA_packRI, fieldK8_packRI]

@[simp] theorem decode_packRI_jmpnz : decode (packRI 0b1010#4 r k8) = .jmpnz r k8 := by
  simp only [decode, opField_packRI, fieldA_packRI, fieldK8_packRI]

end RI

/-! ### Format RRR -/

section RRR
variable (rd rs1 rs2 : RegIdx)

@[simp] theorem decode_packRRR_add : decode (packRRR 0b0011#4 rd rs1 rs2) = .add rd rs1 rs2 := by
  simp only [decode, opField_packRRR, fieldA_packRRR, fieldB_packRRR, fieldC_packRRR]

@[simp] theorem decode_packRRR_sub : decode (packRRR 0b0100#4 rd rs1 rs2) = .sub rd rs1 rs2 := by
  simp only [decode, opField_packRRR, fieldA_packRRR, fieldB_packRRR, fieldC_packRRR]

@[simp] theorem decode_packRRR_mul : decode (packRRR 0b0101#4 rd rs1 rs2) = .mul rd rs1 rs2 := by
  simp only [decode, opField_packRRR, fieldA_packRRR, fieldB_packRRR, fieldC_packRRR]

@[simp] theorem decode_packRRR_div : decode (packRRR 0b0110#4 rd rs1 rs2) = .div rd rs1 rs2 := by
  simp only [decode, opField_packRRR, fieldA_packRRR, fieldB_packRRR, fieldC_packRRR]

end RRR

/-! ### Formats A12 and N, and the reserved opcodes -/

@[simp] theorem decode_packA12_jmp (addr : Addr) : decode (packA12 0b1000#4 addr) = .jmp addr := by
  simp only [decode, opField_packA12, fieldA12_packA12]

/-- Decision D8: the operand bits of a HALT word are ignored. -/
@[simp] theorem decode_packA12_halt (x : Addr) : decode (packA12 0b1111#4 x) = .halt := by
  simp only [decode, opField_packA12]

/-- The sentinel is exactly what a reserved opcode decodes to, whatever the operand bits (rule R78). -/
theorem decode_packA12_unknown_iff (op : OpField) (x : Addr) :
    decode (packA12 op x) = .unknown ↔ op = 0b0000#4 ∨ op = 0b0111#4 ∨ op = 0b1011#4 ∨
      op = 0b1100#4 ∨ op = 0b1101#4 ∨ op = 0b1110#4 := by
  rw [decode_unknown_iff, opField_packA12]

/-! ### The obligation -/

/-- Settles O1: each word is the packed word of its format, so each row is that format's decode equation;
the reserved rows are the sentinel's characterisation at their opcode. -/
theorem decodeReadsFieldsOfEveryOpcode : Obligations.DecodeReadsFieldsOfEveryOpcode := by
  have reserved (op : OpField) (h : op = 0b0000#4 ∨ op = 0b0111#4 ∨ op = 0b1011#4 ∨
      op = 0b1100#4 ∨ op = 0b1101#4 ∨ op = 0b1110#4) (x : BitVec 12) : decode (op ++ x) = .unknown :=
    (decode_packA12_unknown_iff op x).mpr h
  exact ⟨decode_packRI_load, decode_packRI_store, decode_packRRR_add, decode_packRRR_sub,
    decode_packRRR_mul, decode_packRRR_div, decode_packA12_jmp, decode_packRI_jmpz, decode_packRI_jmpnz,
    decode_packA12_halt, reserved _ (by decide), reserved _ (by decide), reserved _ (by decide),
    reserved _ (by decide), reserved _ (by decide), reserved _ (by decide)⟩

end Sys2Proof
end

section
/-! LOAD (rule R120): the immediate it writes, and the two ends of a sequential step. -/

namespace Sys2Proof.Machine

/-- Advance (rule R106) away from the last address. -/
theorem retire_seq_advances {s : State} (h : s.pc ≠ Config.lastPc) :
    (retire .seq s).pc = s.pc + 1#12 ∧ (retire .seq s).status = s.status := by
  simp [retire_seq_next h]

/-- Advance (rule R106) at the last address. -/
theorem retire_seq_overflows {s : State} (h : s.pc = Config.lastPc) :
    (retire .seq s).status = .faulted .programCounterOverflow := by
  rw [retire_seq_last h, raiseFault_status]

/-- Settles O10: LOAD is one register write, which keeps memory, `pc` and status, followed by a
sequential Advance, which keeps registers and memory. -/
theorem loadWritesZeroExtendedImmediate : Obligations.LoadWritesZeroExtendedImmediate := by
  intro rd imm s
  refine ⟨decode_packRI_load rd imm, _, exec_load rd imm s, ?value, ?memory, ?advance, ?overflow⟩
  case value => rw [retire_reg, reg_setReg_same, immediate_toNat]
  case memory =>
    intro a
    rw [retire_readMem, setReg_readMem]
  case advance => exact retire_seq_advances (s := s.setReg rd (immediate imm))
  case overflow => exact retire_seq_overflows (s := s.setReg rd (immediate imm))

end Sys2Proof.Machine
end

section
/-! Control transfer (rules R150 to R152): a jump moves `pc` alone, and the two conditional jumps are one
choice between a jump and a sequential Advance. -/

namespace Sys2Proof.Machine

theorem isZero_iff_toNat (v : Word) : isZero v = true ↔ v.toNat = 0 := by
  rw [isZero_iff, ← BitVec.toNat_inj, BitVec.toNat_zero]

/-- A jump to a short address never overflows: it lands there from every `pc`. -/
theorem retire_jump_shortAddress (addr : Field8) (s : State) :
    (retire (.jump (shortAddress addr)) s).pc.toNat = addr.toNat ∧
      (retire (.jump (shortAddress addr)) s).status = s.status := by
  rw [retire_jump]
  exact ⟨shortAddress_toNat addr, rfl⟩

/-- What JMPZ and JMPNZ share: the end of a step whose request `n` is the jump to `addr` when `taken` holds
and SEQ when `skipped` holds. -/
theorem retire_conditional_jump {taken skipped : Prop} {n : NextPc} {addr : Field8} (s : State)
    (jump : taken → n = .jump (shortAddress addr)) (seq : skipped → n = .seq) :
    (∀ r, (retire n s).reg r = s.reg r) ∧ (∀ a, (retire n s).readMem a = s.readMem a) ∧
      (taken → (retire n s).pc.toNat = addr.toNat ∧ (retire n s).status = s.status) ∧
      (skipped → s.pc ≠ Config.lastPc →
        (retire n s).pc = s.pc + 1#12 ∧ (retire n s).status = s.status) ∧
      (skipped → s.pc = Config.lastPc → (retire n s).status = .faulted .programCounterOverflow) := by
  refine ⟨retire_reg n s, retire_readMem n s, fun h => ?taken, fun h hpc => ?advance,
    fun h hpc => ?overflow⟩
  case taken =>
    rw [jump h]
    exact retire_jump_shortAddress addr s
  case advance =>
    rw [seq h]
    exact retire_seq_advances hpc
  case overflow =>
    rw [seq h]
    exact retire_seq_overflows hpc

/-! ### The obligations -/

/-- Settles O15: JMP's request is a jump, which skips Advance, so no `pc` overflows. -/
theorem jmpSetsPc : Obligations.JmpSetsPc := by
  intro addr s
  refine ⟨decode_packA12_jmp addr, _, exec_jmp addr s, ?pc, ?status, retire_reg _ s, retire_readMem _ s⟩
  case pc => rw [retire_jump, countStep_pc, setPc_pc]
  case status => rw [retire_jump, countStep_status, setPc_status]

/-- Settles O16: JMPZ is the conditional jump taken when the zero test succeeds. -/
theorem jmpzJumpsOnZero : Obligations.JmpzJumpsOnZero := fun rc addr s =>
  ⟨decode_packRI_jmpz rc addr, _, exec_jmpz rc addr s, retire_conditional_jump s
    (fun zero => if_pos ((isZero_iff_toNat _).mpr zero))
    (fun nonzero => if_neg (mt (isZero_iff_toNat _).mp nonzero))⟩

/-- Settles O17: JMPNZ is the conditional jump taken when the zero test fails. -/
theorem jmpnzJumpsOnNonzero : Obligations.JmpnzJumpsOnNonzero := fun rc addr s =>
  ⟨decode_packRI_jmpnz rc addr, _, exec_jmpnz rc addr s, retire_conditional_jump s
    (fun nonzero => if_neg (mt (isZero_iff_toNat _).mp nonzero))
    (fun zero => if_pos ((isZero_iff_toNat _).mpr zero))⟩

end Sys2Proof.Machine
end

section
/-! The unknown-opcode sentinel (rule R171): the six reserved opcodes as a list, and the fault they end in. -/

namespace Sys2Proof.Machine

/-- The sentinel's characterisation (rule R78) with the reserved opcodes listed. -/
theorem decode_unknown_iff_mem (w : MemWord) :
    decode w = .unknown ↔ opField w ∈ [0b0000#4, 0b0111#4, 0b1011#4, 0b1100#4, 0b1101#4, 0b1110#4] := by
  simp only [decode_unknown_iff, List.mem_cons, List.not_mem_nil, or_false]

/-- Settles O19: the reserved opcodes are those the decoder sends to the sentinel, and the sentinel's
execute stage raises its fault on the state as it was, with neither Advance nor Count. -/
theorem reservedOpcodesRaiseUnknownOpcode : Obligations.ReservedOpcodesRaiseUnknownOpcode := by
  refine ⟨fun w reserved => ?decodes, fun s => ?faults⟩
  case decodes => exact (decode_unknown_iff_mem w).mpr reserved
  case faults => rw [exec_unknown, raiseFault]

end Sys2Proof.Machine
end

section
/-! The codec's round trips (rules R80, R82, R83): decode undoes encode, and encode gives back the canonical
word of what a word decodes to. -/

namespace Sys2Proof

/-! ### Decode after encode -/

/-- `UNKNOWN` is the one instruction without a word (rule R82). -/
theorem encode_isSome (i : Instr) : (encode i).isSome = i.wellFormed := by
  cases i <;> rfl

theorem decode_of_encode_eq {i : Instr} {w : MemWord} (h : encode i = some w) : decode w = i := by
  cases i with
  | load rd imm => cases h; exact decode_packRI_load rd imm
  | store rs addr => cases h; exact decode_packRI_store rs addr
  | add rd rs1 rs2 => cases h; exact decode_packRRR_add rd rs1 rs2
  | sub rd rs1 rs2 => cases h; exact decode_packRRR_sub rd rs1 rs2
  | mul rd rs1 rs2 => cases h; exact decode_packRRR_mul rd rs1 rs2
  | div rd rs1 rs2 => cases h; exact decode_packRRR_div rd rs1 rs2
  | jmp addr => cases h; exact decode_packA12_jmp addr
  | jmpz rc addr => cases h; exact decode_packRI_jmpz rc addr
  | jmpnz rc addr => cases h; exact decode_packRI_jmpnz rc addr
  | halt => cases h; exact decode_packA12_halt 0#12
  | unknown => cases h

/-! ### Encode after decode -/

section Repack
variable {op : OpField} {w : MemWord} (h : opField w = op)
include h

theorem packRI_of_opField : packRI op (fieldA w) (fieldK8 w) = w := h ▸ packRI_fields w

theorem packRRR_of_opField : packRRR op (fieldA w) (fieldB w) (fieldC w) = w := h ▸ packRRR_fields w

theorem packA12_of_opField : packA12 op (fieldA12 w) = w := h ▸ packA12_fields w

end Repack

/-- Rule R83, second law: an opcode with operands loses no bit of its word. -/
theorem encode_decode_of_operand_opcode {w : MemWord}
    (h : opField w ∈ [0b0001#4, 0b0010#4, 0b0011#4, 0b0100#4, 0b0101#4, 0b0110#4, 0b1000#4, 0b1001#4,
      0b1010#4]) : encode (decode w) = some w := by
  obtain ⟨load, store, add, sub, mul, div, jmp, jmpz, jmpnz, -⟩ := decode_of_opField w
  simp only [List.mem_cons, List.not_mem_nil, or_false] at h
  rcases h with h | h | h | h | h | h | h | h | h
  · rw [load h, encode, packRI_of_opField h]
  · rw [store h, encode, packRI_of_opField h]
  · rw [add h, encode, packRRR_of_opField h]
  · rw [sub h, encode, packRRR_of_opField h]
  · rw [mul h, encode, packRRR_of_opField h]
  · rw [div h, encode, packRRR_of_opField h]
  · rw [jmp h, encode, packA12_of_opField h]
  · rw [jmpz h, encode, packRI_of_opField h]
  · rw [jmpnz h, encode, packRI_of_opField h]

/-- Rule R84 (decision D8): every HALT word has the one canonical word. -/
theorem encode_decode_of_halt_opcode {w : MemWord} (h : opField w = 0b1111#4) :
    encode (decode w) = some 0xF000#16 := by
  obtain ⟨-, -, -, -, -, -, -, -, -, halt⟩ := decode_of_opField w
  rw [halt h]
  rfl

/-! ### The obligations -/

/-- Settles O2: a well-formed instruction has a word, and each format's decode equation reads the operands
back from it. -/
theorem decodeOfEncodeIsTheInstruction : Obligations.DecodeOfEncodeIsTheInstruction := by
  intro i hi
  obtain ⟨w, hw⟩ := Option.isSome_iff_exists.mp ((encode_isSome i).trans hi)
  exact ⟨w, hw, decode_of_encode_eq hw⟩

/-- Settles O3: a word is packed from its own fields, so an opcode with operands keeps every bit, while HALT
keeps its opcode alone. -/
theorem encodeOfDecodeIsTheCanonicalWord : Obligations.EncodeOfDecodeIsTheCanonicalWord := by
  refine fun w => ⟨encode_decode_of_operand_opcode, fun h => ⟨encode_decode_of_halt_opcode h, ?_⟩⟩
  rw [encode_decode_of_halt_opcode h, Option.some_inj, eq_comm]

/-- Settles O4: fourteen fixed words, by evaluating the decoder. -/
theorem specSampleWordsDecode : Obligations.SpecSampleWordsDecode := by
  unfold Obligations.SpecSampleWordsDecode
  decide

end Sys2Proof
end

section
/-! The execute stage in three parts (rules R105 to R107): the fault it raises, the state it leaves, and the
request it makes of Advance. `exec_of_trap` and `exec_of_no_trap` tie the three to `exec`. -/

namespace Sys2Proof.Machine

/-- The fault that the execute stage of an instruction raises (rules R133, R171). -/
def trap (i : Instr) (s : State) : Option Fault :=
  match i with
  | .div _ _ rs2 => if isZero (s.reg rs2) then some .divisionByZero else none
  | .unknown => some .unknownOpcode
  | .load _ _ | .store _ _ | .add _ _ _ | .sub _ _ _ | .mul _ _ _ | .jmp _ | .jmpz _ _ | .jmpnz _ _
  | .halt => none

/-- The state an execute stage leaves to Advance when it raises no fault. -/
def effect (i : Instr) (s : State) : State :=
  match i with
  | .load rd imm => s.setReg rd (immediate imm)
  | .store rs addr => s.writeMem (shortAddress addr) (lowHalf (s.reg rs))
  | .add rd rs1 rs2 => s.setReg rd (addValue (s.reg rs1) (s.reg rs2))
  | .sub rd rs1 rs2 => s.setReg rd (subValue (s.reg rs1) (s.reg rs2))
  | .mul rd rs1 rs2 => s.setReg rd (mulValue (s.reg rs1) (s.reg rs2))
  | .div rd rs1 rs2 => s.setReg rd (divValue (s.reg rs1) (s.reg rs2))
  | .halt => s.setHalted
  | .jmp _ | .jmpz _ _ | .jmpnz _ _ | .unknown => s

/-- The request an execute stage makes of Advance when it raises no fault (rule R26). -/
def request (i : Instr) (s : State) : NextPc :=
  match i with
  | .jmp addr => .jump addr
  | .jmpz rc addr => if isZero (s.reg rc) then .jump (shortAddress addr) else .seq
  | .jmpnz rc addr => if isZero (s.reg rc) then .seq else .jump (shortAddress addr)
  | .halt | .unknown => .stop
  | .load _ _ | .store _ _ | .add _ _ _ | .sub _ _ _ | .mul _ _ _ | .div _ _ _ => .seq

/-! ### The three parts and `exec` -/

theorem exec_of_trap {i : Instr} {s : State} {r : Fault} (h : trap i s = some r) :
    exec i s = .next (raiseFault r s) := by
  cases i with
  | div rd rs1 rs2 =>
    simp only [trap, Option.ite_none_right_eq_some] at h
    obtain ⟨hz, hr⟩ := h
    cases hr
    rw [exec_div, if_pos hz]
  | unknown => cases h; rfl
  | _ => cases h

theorem exec_of_no_trap {i : Instr} {s : State} (h : trap i s = none) :
    exec i s = .next (retire (request i s) (effect i s)) := by
  cases i with
  | div rd rs1 rs2 =>
    simp only [trap, ite_eq_right_iff, reduceCtorEq, imp_false] at h
    rw [exec_div, if_neg h]
    rfl
  | unknown => cases h
  | _ => rfl

/-- Either the execute stage raises its fault on the state as it was, or Advance takes its request. -/
theorem exec_trap_or_retire {i : Instr} {s t : State} (h : exec i s = .next t) :
    (∃ r, trap i s = some r ∧ t = raiseFault r s) ∨
    (trap i s = none ∧ t = retire (request i s) (effect i s)) := by
  cases ht : trap i s with
  | none =>
    rw [exec_of_no_trap ht] at h
    cases h
    exact .inr ⟨rfl, rfl⟩
  | some r =>
    rw [exec_of_trap ht] at h
    cases h
    exact .inl ⟨r, rfl, rfl⟩

/-! ### The fault -/

theorem trap_eq_some_iff {i : Instr} {s : State} {r : Fault} :
    trap i s = some r ↔ (i = .unknown ∧ r = .unknownOpcode) ∨
      ((∃ rd rs1 rs2, i = .div rd rs1 rs2 ∧ s.reg rs2 = 0#32) ∧ r = .divisionByZero) := by
  cases i with
  | div rd rs1 rs2 =>
    simp [trap, isZero_iff, @eq_comm _ r]
  | unknown => simp [trap, @eq_comm _ r]
  | _ => simp [trap]

/-! ### The request -/

/-- The specification's `requestsNext` is a SEQ request that no fault forestalls. -/
theorem requestsNext_iff {i : Instr} {s : State} :
    requestsNext i s ↔ trap i s = none ∧ request i s = .seq := by
  cases i with
  | div rd rs1 rs2 | jmpz rd addr | jmpnz rd addr => simp [requestsNext, trap, request, isZero_iff]
  | _ => simp [requestsNext, trap, request]

@[simp] theorem request_halt (s : State) : request .halt s = .stop := rfl

/-! ### What the effect leaves unchanged -/

section Effect
variable (i : Instr) (s : State)

@[simp] theorem effect_pc : (effect i s).pc = s.pc := by cases i <;> rfl
@[simp] theorem effect_budget : (effect i s).budget = s.budget := by cases i <;> rfl
@[simp] theorem effect_steps : (effect i s).steps = s.steps := by cases i <;> rfl

theorem effect_status : (effect i s).status = if i = .halt then .halted else s.status := by
  cases i <;> rfl

theorem effect_setPc (a : Addr) : effect i (s.setPc a) = (effect i s).setPc a := by cases i <;> rfl

theorem trap_setPc (a : Addr) : trap i (s.setPc a) = trap i s := by cases i <;> rfl

variable {i}

theorem effect_status_of_ne_halt (h : i ≠ .halt) : (effect i s).status = s.status := by
  rw [effect_status, if_neg h]

theorem effect_mem_of_ne_store (h : ∀ rs addr, i ≠ .store rs addr) : (effect i s).mem = s.mem := by
  cases i with
  | store rs addr => exact absurd rfl (h rs addr)
  | _ => rfl

end Effect

/-! ### How an instruction ends -/

/-- The four ends of an instruction: its own fault, the overflow of Advance, HALT, or a counted step that
keeps the status. -/
theorem exec_ends {i : Instr} {s t : State} (h : exec i s = .next t) :
    (∃ r, trap i s = some r ∧ t = raiseFault r s) ∨
    (requestsNext i s ∧ s.pc = Config.lastPc ∧ t = raiseFault .programCounterOverflow (effect i s)) ∨
    (i = .halt ∧ t = s.setHalted.countStep) ∨
    (i ≠ .halt ∧ trap i s = none ∧ ¬(requestsNext i s ∧ s.pc = Config.lastPc) ∧ t.status = s.status ∧
      t.steps = s.steps + 1) := by
  obtain trapped | ⟨ht, rfl⟩ := exec_trap_or_retire h
  · exact .inl trapped
  by_cases halt : i = .halt
  · subst halt
    exact .inr (.inr (.inl ⟨rfl, rfl⟩))
  rw [requestsNext_iff]
  obtain ⟨hn, hpc, -⟩ | ⟨hn, hstatus, hsteps, -⟩ := retire_cases (request i s) (effect i s)
  · rw [hn, retire_seq_last hpc]
    exact .inr (.inl ⟨⟨ht, rfl⟩, effect_pc i s ▸ hpc, rfl⟩)
  · rw [effect_pc] at hn
    exact .inr (.inr (.inr ⟨halt, ht, fun h => hn ⟨h.1.2, h.2⟩,
      hstatus.trans (effect_status_of_ne_halt s halt), hsteps.trans (by rw [effect_steps])⟩))

end Sys2Proof.Machine
end

section
/-! The step (rules R100 to R102, R107, R199): which of its three arms it takes, and how it ends. -/

namespace Sys2Proof.Machine

/-! ### The three arms -/

theorem budgetExhausted_eq_false_iff (s : State) :
    budgetExhausted s = false ↔ ∀ b, s.budget = some b → s.steps ≠ b.toNat := by
  rw [← Bool.not_eq_true, budgetExhausted_iff]
  push Not
  rfl

theorem step_of_budgetExhausted {s : State} (hr : s.status = .running) (hb : budgetExhausted s = true) :
    step s = .next (raiseFault .stepBudgetExceeded s) := by
  simp [step, hr, hb]

theorem step_of_not_running {s : State} (h : s.status ≠ .running) : step s = .next s := by
  cases hs : s.status with
  | running => exact absurd hs h
  | halted | faulted r => simp only [step, hs]

theorem step_total (s : State) : ∃ t, step s = .next t := by
  by_cases hr : s.status = .running
  · cases hb : budgetExhausted s with
    | true => exact ⟨_, step_of_budgetExhausted hr hb⟩
    | false => exact step_running hr hb ▸ exec_total _ s
  · exact ⟨s, step_of_not_running hr⟩

/-! ### Counting -/

/-- Rule R107 (decision D9): an instruction of a running engine faults without counting, or counts. -/
theorem exec_faults_or_counts {i : Instr} {s t : State} (hr : s.status = .running)
    (h : exec i s = .next t) :
    ((∃ r, t.status = .faulted r) ∧ t.steps = s.steps) ∨
    ((t.status = .running ∨ t.status = .halted) ∧ t.steps = s.steps + 1) := by
  obtain ⟨r, -, rfl⟩ | ⟨-, -, rfl⟩ | ⟨-, rfl⟩ | ⟨-, -, -, hstatus, hsteps⟩ := exec_ends h
  · exact .inl ⟨⟨r, raiseFault_status r s⟩, raiseFault_steps r s⟩
  · exact .inl ⟨⟨_, raiseFault_status _ _⟩, effect_steps i s⟩
  · exact .inr ⟨.inr rfl, rfl⟩
  · exact .inr ⟨.inl (hstatus.trans hr), hsteps⟩

/-- The same of the whole step, the budget check included. -/
theorem step_faults_or_counts {s t : State} (hr : s.status = .running) (h : step s = .next t) :
    ((∃ r, t.status = .faulted r) ∧ t.steps = s.steps) ∨
    ((t.status = .running ∨ t.status = .halted) ∧ t.steps = s.steps + 1) := by
  obtain ⟨hn, -⟩ | ⟨-, -, rfl⟩ | ⟨-, -, hx⟩ := step_cases h
  · exact absurd hr hn
  · exact .inl ⟨⟨_, raiseFault_status _ s⟩, rfl⟩
  · exact exec_faults_or_counts hr hx

/-! ### The placed word -/

theorem fetchWord_withFetchWord {s : State} (hm : Memory.wf s.mem = true) (w : MemWord) :
    fetchWord (s.withFetchWord 16 w.toNat) = w := by
  have word : BitVec.ofNat 16 (w.toNat % 2 ^ 16) = w := by
    rw [Nat.mod_eq_of_lt w.isLt, BitVec.ofNat_toNat, BitVec.setWidth_eq]
  exact (readMem_writeMem_same hm s.pc _).trans word

/-! ### The obligations -/

/-- Settles O5: the budget check passes, so the step is its third arm. -/
theorem stepRunsDecodedInstruction : Obligations.StepRunsDecodedInstruction := by
  rintro s i hr hb rfl
  exact step_running hr ((budgetExhausted_eq_false_iff s).mpr hb)

/-- Settles O6: the budget check is before the fetch, and its fault changes the status alone. -/
theorem usedUpBudgetFaultsBeforeFetch : Obligations.UsedUpBudgetFaultsBeforeFetch :=
  fun s b hr hb hs => step_of_budgetExhausted hr ((budgetExhausted_iff s).mpr ⟨b, hb, hs⟩)

/-- Settles O7: both terminal statuses take the arm that answers the state itself. -/
theorem terminalEngineStays : Obligations.TerminalEngineStays := fun _ => step_of_not_running

/-- Settles O8: a step answers a state that has either left RUNNING or counted. -/
theorem runningEngineIsNeverStuck : Obligations.RunningEngineIsNeverStuck := by
  intro s hr
  obtain ⟨t, ht⟩ := step_total s
  refine ⟨t, ht, ?_⟩
  rintro rfl
  obtain ⟨⟨r, hf⟩, -⟩ | ⟨-, counted⟩ := step_faults_or_counts hr ht
  · rw [hr] at hf
    cases hf
  · exact absurd counted (Nat.ne_of_lt (Nat.lt_succ_self _))

/-- Settles O9: the loader writes one word, the one fetched, and leaves a budget that is not used up. -/
theorem placedWordIsRunNext : Obligations.PlacedWordIsRunNext := by
  intro s w hm
  refine ⟨?runs, fun _ => rfl, rfl, rfl, fun a ha => readMem_writeMem_other s _ ha⟩
  case runs =>
    have within : budgetExhausted (s.withFetchWord 16 w.toNat) = false := usedUp_cleared s.budget s.steps
    rw [step_running rfl within, fetchWord_withFetchWord hm]

/-- Settles O22: the two ends of a step, faulted without counting or counted, exclude each other. -/
theorem stepsCountCompletedSteps : Obligations.StepsCountCompletedSteps := by
  intro s t hr h
  obtain ⟨⟨r, hf⟩, hsteps⟩ | ⟨hs | hs, hsteps⟩ := step_faults_or_counts hr h
  · simp [hf, hsteps]
  · simp [hs, hsteps]
  · simp [hs, hsteps]

end Sys2Proof.Machine
end

section
/-! Advance and the frames of the instructions (rules R23, R26, R29, R52, R106): what each leaves as it was,
and a STORE into the word that is fetched next. -/

namespace Sys2Proof.Machine

/-! ### What every instruction, and every instruction but STORE, leaves -/

theorem readMem_congr {s t : State} (h : t.mem = s.mem) (a : Addr) : t.readMem a = s.readMem a := by
  rw [State.readMem, State.readMem, h]

/-- No execute stage, nor Advance, changes the budget (rule R29). -/
theorem exec_budget {i : Instr} {s t : State} (h : exec i s = .next t) : t.budget = s.budget := by
  obtain ⟨r, -, rfl⟩ | ⟨-, rfl⟩ := exec_trap_or_retire h
  · exact raiseFault_budget r s
  · rw [retire_budget, effect_budget]

theorem exec_mem_of_ne_store {i : Instr} {s t : State} (h : exec i s = .next t)
    (hi : ∀ rs addr, i ≠ .store rs addr) : t.mem = s.mem := by
  obtain ⟨r, -, rfl⟩ | ⟨-, rfl⟩ := exec_trap_or_retire h
  · exact raiseFault_mem r s
  · rw [retire_mem, effect_mem_of_ne_store s hi]

theorem ne_store_of_destination_eq_some {i : Instr} {rd : RegIdx} (h : i.destination = some rd)
    (rs : RegIdx) (addr : Field8) : i ≠ .store rs addr := by
  rintro rfl
  cases h

/-! ### STORE -/

theorem lowHalf_eq_setWidth (v : Word) : lowHalf v = v.setWidth 16 :=
  BitVec.eq_of_toNat_eq (by rw [lowHalf_toNat, BitVec.toNat_setWidth])

theorem exec_store_readMem_other {rs : RegIdx} {addr : Field8} {s t : State}
    (h : exec (.store rs addr) s = .next t) {a : Addr} (ha : a ≠ shortAddress addr) :
    t.readMem a = s.readMem a := by
  cases h
  rw [retire_readMem, readMem_writeMem_other s _ ha]

/-- Rule R121: a short address is below 256, so no instruction reaches a word above. -/
theorem exec_readMem_high {i : Instr} {s t : State} (h : exec i s = .next t) {a : Addr}
    (ha : 256 ≤ a.toNat) : t.readMem a = s.readMem a := by
  by_cases hi : ∃ rs addr, i = .store rs addr
  · obtain ⟨rs, addr, rfl⟩ := hi
    refine exec_store_readMem_other h ?_
    rintro rfl
    have := shortAddress_toNat addr
    omega
  · push Not at hi
    exact readMem_congr (exec_mem_of_ne_store h hi) a

/-- A STORE to the word after its own does not stand at the last address, so it advances onto the word it
wrote. -/
theorem exec_store_to_next {rs : RegIdx} {addr : Field8} {s t : State} (hm : Memory.wf s.mem = true)
    (hnext : s.pc.toNat + 1 = addr.toNat) (h : exec (.store rs addr) s = .next t) :
    t = ((s.writeMem (shortAddress addr) (lowHalf (s.reg rs))).setPc (shortAddress addr)).countStep ∧
      fetchWord t = lowHalf (s.reg rs) := by
  have haddr := addr.isLt
  have hpc : s.pc ≠ Config.lastPc := by
    intro e
    have last : s.pc.toNat = 4095 := congrArg BitVec.toNat e
    omega
  have target : s.pc + 1#12 = shortAddress addr := by
    apply BitVec.eq_of_toNat_eq
    rw [shortAddress_toNat, BitVec.toNat_add, ← hnext]
    exact Nat.mod_eq_of_lt (show s.pc.toNat + 1 < 2 ^ 12 by omega)
  rw [exec_store, retire_seq_next (s := s.writeMem _ _) hpc, writeMem_pc, target] at h
  cases h
  exact ⟨rfl, readMem_writeMem_same hm _ _⟩

/-! ### SEQ -/

theorem exec_of_requestsNext {i : Instr} {s : State} (h : requestsNext i s) :
    exec i s = .next (retire .seq (effect i s)) := by
  obtain ⟨no_trap, seq⟩ := requestsNext_iff.mp h
  rw [exec_of_no_trap no_trap, seq]

theorem effect_status_of_requestsNext {i : Instr} {s : State} (h : requestsNext i s) :
    (effect i s).status = s.status := by
  refine effect_status_of_ne_halt s ?_
  rintro rfl
  exact h

/-! ### The obligations -/

/-- Settles O21: Advance takes the SEQ request on a state with the `pc`, status and count of the start. -/
theorem sequentialInstructionsAdvanceOrOverflow : Obligations.SequentialInstructionsAdvanceOrOverflow := by
  intro i s t seq h
  rw [exec_of_requestsNext seq] at h
  cases h
  refine ⟨fun hpc => ?advance, fun hpc => ?overflow⟩
  case advance =>
    rw [retire_seq_next (by rwa [effect_pc])]
    simp [effect_status_of_requestsNext seq]
  case overflow =>
    rw [retire_seq_last (by rwa [effect_pc])]
    simp [hpc]

/-- Settles O23: an instruction with a destination is no STORE and no HALT, and the one fault it has of its
own is that of DIV, which writes nothing. -/
theorem frameOfRegisterWriters : Obligations.FrameOfRegisterWriters := by
  intro i rd s t hd h
  refine ⟨fun r hr => exec_reg_of_destination_ne h (by rw [hd]; exact fun e => hr (Option.some.inj e).symm),
    readMem_congr (exec_mem_of_ne_store h (ne_store_of_destination_eq_some hd)), exec_budget h, ?_⟩
  obtain ⟨r, ht, rfl⟩ | ⟨-, -, rfl⟩ | ⟨rfl, -⟩ | ⟨-, -, -, hstatus, hsteps⟩ := exec_ends h
  · obtain ⟨rfl, -⟩ | ⟨-, rfl⟩ := trap_eq_some_iff.mp ht
    · cases hd
    · exact .inr (.inr ⟨rfl, rfl, rfl, rfl⟩)
  · exact .inr (.inl ⟨rfl, effect_steps i s, effect_pc i s⟩)
  · cases hd
  · exact .inl ⟨hstatus, hsteps⟩

/-- Settles O24: STORE writes one memory word, raises no fault of its own, and is no HALT. -/
theorem frameOfStore : Obligations.FrameOfStore := by
  intro rs addr s t h
  refine ⟨fun r => exec_reg_of_destination_ne h nofun, fun a => exec_store_readMem_other h,
    shortAddress_toNat addr, exec_budget h, ?_⟩
  obtain ⟨r, ht, -⟩ | ⟨-, -, rfl⟩ | ⟨halt, -⟩ | ⟨-, -, -, hstatus, hsteps⟩ := exec_ends h
  · cases ht
  · exact .inr ⟨rfl, rfl, rfl⟩
  · cases halt
  · exact .inl ⟨hstatus, hsteps⟩

/-- Settles O25: none of the five has a destination or is a STORE, and the one fault among them is that of
the sentinel. -/
theorem frameOfControlAndSystem : Obligations.FrameOfControlAndSystem := by
  intro i s t hi h
  have no_destination : i.destination = none := by
    obtain ⟨a, rfl⟩ | ⟨rc, a, rfl⟩ | ⟨rc, a, rfl⟩ | rfl | rfl := hi <;> rfl
  have no_store : ∀ rs addr, i ≠ .store rs addr := by
    rintro rs addr rfl
    simp at hi
  refine ⟨fun r => exec_reg_of_destination_ne h (by rw [no_destination]; nofun),
    readMem_congr (exec_mem_of_ne_store h no_store), exec_budget h, ?_⟩
  obtain ⟨r, ht, rfl⟩ | ⟨-, -, rfl⟩ | ⟨halt, rfl⟩ | ⟨-, -, -, hstatus, hsteps⟩ := exec_ends h
  · obtain ⟨unknown, rfl⟩ | ⟨⟨rd, rs1, rs2, rfl, -⟩, -⟩ := trap_eq_some_iff.mp ht
    · exact .inr (.inr (.inr ⟨unknown, rfl, rfl, rfl⟩))
    · cases no_destination
  · exact .inr (.inl ⟨rfl, effect_steps i s, effect_pc i s⟩)
  · exact .inr (.inr (.inl ⟨halt, rfl, rfl, rfl⟩))
  · exact .inl ⟨hstatus, hsteps⟩

/-- Settles O28: a step changes memory only through the instruction it runs, and there only through STORE. -/
theorem onlyStoresChangeMemoryAndOnlyLowWords : Obligations.OnlyStoresChangeMemoryAndOnlyLowWords := by
  intro s t h
  obtain ⟨-, rfl⟩ | ⟨-, -, rfl⟩ | ⟨-, -, hx⟩ := step_cases h
  · exact ⟨fun _ => rfl, fun _ _ => rfl⟩
  · exact ⟨fun _ => rfl, fun _ _ => rfl⟩
  · exact ⟨exec_mem_of_ne_store hx, fun _ => exec_readMem_high hx⟩

/-- Settles O29: the STORE advances onto the word it wrote, and the budget has a step left to run it. -/
theorem storeToNextWordIsRunNext : Obligations.StoreToNextWordIsRunNext := by
  intro s rs addr hr hb hm hi hnext
  have first : step s = exec (.store rs addr) s :=
    hi ▸ step_running hr ((budgetExhausted_eq_false_iff s).mpr fun b h => (hb b h).1)
  obtain ⟨t, ht⟩ := exec_total (.store rs addr) s
  obtain ⟨shape, fetched⟩ := exec_store_to_next hm hnext ht
  have second : budgetExhausted t = false :=
    (budgetExhausted_eq_false_iff t).mpr fun b h => by rw [shape] at h ⊢; exact (hb b h).2
  have running : t.status = .running := by rw [shape]; exact hr
  refine ⟨t, first.trans ht, ?_⟩
  rw [step_running running second, fetched, lowHalf_eq_setWidth]

end Sys2Proof.Machine
end

section
/-! Faults (rules R180, R187, R189): which status a step ends with and why, and the state a fault leaves. -/

namespace Sys2Proof.Machine

/-! ### The cause of each status after an instruction -/

section Causes
variable {i : Instr} {s t : State} (hr : s.status = .running) (h : exec i s = .next t)
include hr h

theorem exec_status_eq_faulted_iff {r : Fault} (hne : r ≠ .programCounterOverflow) :
    t.status = .faulted r ↔ trap i s = some r := by
  obtain ⟨r', ht, rfl⟩ | ⟨seq, -, rfl⟩ | ⟨rfl, rfl⟩ | ⟨-, ht, -, hstatus, -⟩ := exec_ends h
  · simp [ht]
  · simp [hne.symm, (requestsNext_iff.mp seq).1]
  · simp [trap]
  · simp [hstatus, hr, ht]

theorem exec_status_eq_overflow_iff :
    t.status = .faulted .programCounterOverflow ↔ s.pc = Config.lastPc ∧ requestsNext i s := by
  obtain ⟨r, ht, rfl⟩ | ⟨seq, hpc, rfl⟩ | ⟨rfl, rfl⟩ | ⟨-, -, hn, hstatus, -⟩ := exec_ends h
  · obtain ⟨-, rfl⟩ | ⟨-, rfl⟩ := trap_eq_some_iff.mp ht <;> simp [requestsNext_iff, ht]
  · simp [hpc, seq]
  · simp [requestsNext]
  · rw [hstatus, hr]
    exact ⟨nofun, fun ⟨hpc, seq⟩ => absurd ⟨seq, hpc⟩ hn⟩

theorem exec_status_eq_halted_iff : t.status = .halted ↔ i = .halt := by
  obtain ⟨r, ht, rfl⟩ | ⟨seq, -, rfl⟩ | ⟨rfl, rfl⟩ | ⟨halt, -, -, hstatus, -⟩ := exec_ends h
  · obtain ⟨rfl, -⟩ | ⟨⟨rd, rs1, rs2, rfl, -⟩, -⟩ := trap_eq_some_iff.mp ht <;> simp
  · refine ⟨nofun, ?_⟩
    rintro rfl
    exact seq.elim
  · simp
  · simp [hstatus, hr, halt]

end Causes

/-! ### The state a fault leaves -/

/-- Rule R187 (decision D7): the overflow comes after the instruction's writes, which do not depend on
`pc`. -/
theorem exec_overflow_keeps_writes {i : Instr} {s t : State} (h : exec i s = .next t)
    (seq : requestsNext i s) (hpc : s.pc = Config.lastPc) (a : Addr) :
    t.pc = s.pc ∧ t.steps = s.steps ∧ t.budget = s.budget ∧
      ∃ u, exec i (s.setPc a) = .next u ∧ t.regs = u.regs ∧ t.mem = u.mem := by
  rw [exec_of_requestsNext seq, retire_seq_last (by rwa [effect_pc])] at h
  cases h
  obtain ⟨no_trap, -⟩ := requestsNext_iff.mp seq
  refine ⟨effect_pc i s, effect_steps i s, effect_budget i s, _,
    exec_of_no_trap ((trap_setPc i s a).trans no_trap), ?_, ?_⟩
  · rw [raiseFault_regs, retire_regs, effect_setPc, setPc_regs]
  · rw [raiseFault_mem, retire_mem, effect_setPc, setPc_mem]

/-! ### The obligations -/

/-- Settles O30: the budget check decides first, and then each status has the cause that the instruction's
ends give it. -/
theorem statusAfterStepHasExactCause : Obligations.StatusAfterStepHasExactCause := by
  intro s t hr h
  rw [← budgetExhausted_iff]
  obtain ⟨hn, -⟩ | ⟨-, hb, rfl⟩ | ⟨-, hb, hx⟩ := step_cases h
  · exact absurd hr hn
  · simp [hb]
  · rw [exec_status_eq_overflow_iff hr hx, exec_status_eq_halted_iff hr hx]
    have cause {r : Fault} (hne : r ≠ .programCounterOverflow) := exec_status_eq_faulted_iff hr hx hne
    simp [cause, trap_eq_some_iff, hb]

/-- Settles O31: every fault but the overflow is raised on the state the step began with. -/
theorem faultLeavesTheTabledState : Obligations.FaultLeavesTheTabledState := by
  intro s t r hr h hf
  obtain ⟨hn, -⟩ | ⟨-, -, rfl⟩ | ⟨-, -, hx⟩ := step_cases h
  · exact absurd hr hn
  · cases hf
    exact ⟨fun _ => rfl, nofun⟩
  · refine ⟨fun hne => ?alone, ?overflow⟩
    case alone =>
      have := exec_of_trap ((exec_status_eq_faulted_iff hr hx hne).mp hf)
      exact Host.Outcome.next.inj (hx.symm.trans this)
    case overflow =>
      rintro rfl
      obtain ⟨hpc, seq⟩ := (exec_status_eq_overflow_iff hr hx).mp hf
      obtain ⟨kept_pc, kept⟩ := exec_overflow_keeps_writes hx seq hpc 0#12
      exact ⟨kept_pc.trans hpc, kept_pc, kept⟩

end Sys2Proof.Machine
end

section
/-! What an instruction reads (rule R23): states that agree but for one register, which is no source of the
instruction, still agree so after it. -/

namespace Sys2Proof.Machine

/-- The states agree in everything but, perhaps, register `r`. -/
structure AgreeOff (r : RegIdx) (s t : State) : Prop where
  pc : t.pc = s.pc
  status : t.status = s.status
  steps : t.steps = s.steps
  budget : t.budget = s.budget
  mem : t.mem = s.mem
  reg : ∀ q, q ≠ r → t.reg q = s.reg q

theorem agreeOff_setReg (r : RegIdx) (v : Word) (s : State) : AgreeOff r s (s.setReg r v) :=
  ⟨rfl, rfl, rfl, rfl, rfl, fun _ => reg_setReg_other s v⟩

namespace AgreeOff

variable {r : RegIdx} {s t : State} (h : AgreeOff r s t)
include h

/-! ### The shared operations keep the agreement -/

theorem setReg (i : RegIdx) (v : Word) : AgreeOff r (s.setReg i v) (t.setReg i v) :=
  ⟨h.pc, h.status, h.steps, h.budget, h.mem, fun q hq => by rw [reg_setReg, reg_setReg, h.reg q hq]⟩

theorem writeMem (a : Addr) (v : MemWord) : AgreeOff r (s.writeMem a v) (t.writeMem a v) :=
  ⟨h.pc, h.status, h.steps, h.budget, by simp [h.mem], h.reg⟩

theorem setHalted : AgreeOff r s.setHalted t.setHalted :=
  ⟨h.pc, rfl, h.steps, h.budget, h.mem, h.reg⟩

theorem raiseFault (f : Fault) : AgreeOff r (raiseFault f s) (raiseFault f t) :=
  ⟨h.pc, rfl, h.steps, h.budget, h.mem, h.reg⟩

theorem retire (n : NextPc) : AgreeOff r (retire n s) (retire n t) := by
  have counted : t.steps + 1 = s.steps + 1 := congrArg (· + 1) h.steps
  cases n with
  | seq =>
    by_cases hpc : s.pc = Config.lastPc
    · rw [retire_seq_last hpc, retire_seq_last (h.pc.trans hpc)]
      exact h.raiseFault _
    · rw [retire_seq_next hpc, retire_seq_next (h.pc ▸ hpc), h.pc]
      exact ⟨rfl, h.status, counted, h.budget, h.mem, h.reg⟩
  | jump target => exact ⟨rfl, h.status, counted, h.budget, h.mem, h.reg⟩
  | stop => exact ⟨h.pc, h.status, counted, h.budget, h.mem, h.reg⟩

/-! ### The parts of the execute stage -/

variable {i : Instr} (hi : r ∉ i.sources)
include hi

theorem reg_source {q : RegIdx} (hq : q ∈ i.sources) : t.reg q = s.reg q :=
  h.reg q (ne_of_mem_of_not_mem hq hi)

theorem trap_eq : trap i t = trap i s := by
  cases i with
  | div rd rs1 rs2 => rw [trap, trap, h.reg_source hi (q := rs2) (by simp [Instr.sources])]
  | _ => rfl

theorem request_eq : request i t = request i s := by
  cases i with
  | jmpz rc addr | jmpnz rc addr =>
    rw [request, request, h.reg_source hi (q := rc) (by simp [Instr.sources])]
  | _ => rfl

theorem effect : AgreeOff r (effect i s) (effect i t) := by
  cases i with
  | load rd imm => exact h.setReg rd _
  | store rs addr =>
    rw [Machine.effect, Machine.effect, h.reg_source hi (q := rs) (by simp [Instr.sources])]
    exact h.writeMem _ _
  | add rd rs1 rs2 | sub rd rs1 rs2 | mul rd rs1 rs2 | div rd rs1 rs2 =>
    rw [Machine.effect, Machine.effect, h.reg_source hi (q := rs1) (by simp [Instr.sources]),
      h.reg_source hi (q := rs2) (by simp [Instr.sources])]
    exact h.setReg rd _
  | halt => exact h.setHalted
  | jmp addr | jmpz rc addr | jmpnz rc addr | unknown => exact h

theorem exec {s' t' : State} (hs : exec i s = .next s') (ht : exec i t = .next t') :
    AgreeOff r s' t' := by
  cases trapped : trap i s with
  | some f =>
    cases (exec_of_trap trapped).symm.trans hs
    cases (exec_of_trap ((h.trap_eq hi).trans trapped)).symm.trans ht
    exact h.raiseFault f
  | none =>
    cases (exec_of_no_trap trapped).symm.trans hs
    cases (exec_of_no_trap ((h.trap_eq hi).trans trapped)).symm.trans ht
    rw [h.request_eq hi]
    exact (h.effect hi).retire _

end AgreeOff

/-- Settles O27: a write to a register leaves the states in agreement off it, and an instruction of which it
is no source keeps that. -/
theorem instructionsReadOnlyTheirSources : Obligations.InstructionsReadOnlyTheirSources := by
  intro i r v s t u hi ht hu
  obtain ⟨pc, status, steps, budget, mem, reg⟩ := (agreeOff_setReg r v s).exec hi ht hu
  exact ⟨pc, status, steps, budget, mem, reg⟩

end Sys2Proof.Machine
end

section
/-! The invariant (log 1; rules R102, R182): each of its three parts over one step, and the engines it holds
of at the start. -/

namespace Sys2Proof.Machine

/-! ### Its parts -/

theorem withinBudget_iff (s : State) :
    s.withinBudget = true ↔ ∀ b, s.budget = some b → s.steps ≤ b.toNat := by
  unfold State.withinBudget
  cases s.budget <;> simp

theorem postMortem_of_running {s : State} (h : s.status = .running) : s.postMortem := by
  simp [State.postMortem, h]

/-! ### What the execute stage keeps -/

theorem effect_wf {s : State} (hm : Memory.wf s.mem = true) (i : Instr) :
    Memory.wf (effect i s).mem = true := by
  cases i with
  | store rs addr => exact Memory.wf_write hm _ _
  | _ => exact hm

theorem exec_wf {i : Instr} {s t : State} (hm : Memory.wf s.mem = true) (h : exec i s = .next t) :
    Memory.wf t.mem = true := by
  obtain ⟨r, -, rfl⟩ | ⟨-, rfl⟩ := exec_trap_or_retire h
  · exact hm
  · rw [retire_mem]
    exact effect_wf hm i

/-- An instruction that ends the run leaves itself at `pc` (decisions D6, D7). -/
theorem exec_postMortem {s t : State} (hr : s.status = .running)
    (h : exec (decode (fetchWord s)) s = .next t) : t.postMortem := by
  obtain ⟨r, ht, rfl⟩ | ⟨-, hpc, rfl⟩ | ⟨halt, rfl⟩ | ⟨-, -, -, hstatus, -⟩ := exec_ends h
  · obtain ⟨unknown, rfl⟩ | ⟨⟨rd, rs1, rs2, div, zero⟩, rfl⟩ := trap_eq_some_iff.mp ht
    · exact unknown
    · exact ⟨rd, rs1, rs2, div, (isZero_iff _).mpr zero⟩
  · exact (effect_pc _ s).trans hpc
  · exact halt
  · exact postMortem_of_running (hstatus.trans hr)

/-! ### What the step keeps -/

section Step
variable {s t : State} (h : step s = .next t)
include h

theorem step_budget : t.budget = s.budget := by
  obtain ⟨-, rfl⟩ | ⟨-, -, rfl⟩ | ⟨-, -, hx⟩ := step_cases h
  · rfl
  · rfl
  · exact exec_budget hx

theorem step_wf (hm : Memory.wf s.mem = true) : Memory.wf t.mem = true := by
  obtain ⟨-, rfl⟩ | ⟨-, -, rfl⟩ | ⟨-, -, hx⟩ := step_cases h
  · exact hm
  · exact hm
  · exact exec_wf hm hx

/-- A step that counts began with a step left in the budget. -/
theorem step_withinBudget (hw : s.withinBudget = true) : t.withinBudget = true := by
  rw [withinBudget_iff] at hw ⊢
  rw [step_budget h]
  intro b hb
  have before := hw b hb
  obtain ⟨-, rfl⟩ | ⟨-, -, rfl⟩ | ⟨hr, left, hx⟩ := step_cases h
  · exact before
  · exact before
  · have unused := (budgetExhausted_eq_false_iff s).mp left b hb
    obtain ⟨-, hsteps⟩ | ⟨-, hsteps⟩ := exec_faults_or_counts hr hx <;> omega

theorem step_postMortem (hp : s.postMortem) : t.postMortem := by
  obtain ⟨-, rfl⟩ | ⟨-, hb, rfl⟩ | ⟨hr, -, hx⟩ := step_cases h
  · exact hp
  · exact hb
  · exact exec_postMortem hr hx

end Step

/-! ### The canonical form determines the memory -/

/-- What a canonical memory reads as at its first listed address, and below it. -/
theorem Memory.read_cons_of_wfFrom {lo k : Nat} {v : MemWord} {m : Memory}
    (h : Memory.wfFrom lo ((k, v) :: m) = true) :
    Memory.read ((k, v) :: m) k ≠ Config.unwrittenWord ∧
      ∀ a < k, Memory.read ((k, v) :: m) a = Config.unwrittenWord := by
  obtain ⟨-, hk, hv, hm⟩ := Memory.wfFrom_cons.mp h
  refine ⟨by rwa [Memory.read_cons, if_pos rfl], fun a ha => ?_⟩
  exact Memory.read_below (Memory.wfFrom_cons.mpr ⟨Nat.le_refl k, hk, hv, hm⟩) ha

/-- The words of a canonical memory behind its first cell read as the whole memory does, but at that cell. -/
theorem Memory.read_tail_eq {k : Nat} {v : MemWord} {m m' : Memory} (hm : Memory.wfFrom (k + 1) m = true)
    (hm' : Memory.wfFrom (k + 1) m' = true)
    (alike : ∀ a < Config.memWords, Memory.read ((k, v) :: m) a = Memory.read ((k, v) :: m') a) :
    ∀ a < Config.memWords, Memory.read m a = Memory.read m' a := by
  intro a ha
  by_cases hk : k = a
  · subst hk
    rw [Memory.read_below hm (Nat.lt_succ_self k), Memory.read_below hm' (Nat.lt_succ_self k)]
  · have := alike a ha
    rwa [Memory.read_cons, Memory.read_cons, if_neg hk, if_neg hk] at this

theorem Memory.eq_of_read_eq {lo lo' : Nat} {m m' : Memory} (hm : Memory.wfFrom lo m = true)
    (hm' : Memory.wfFrom lo' m' = true)
    (alike : ∀ a < Config.memWords, Memory.read m a = Memory.read m' a) : m = m' := by
  induction m generalizing lo lo' m' with
  | nil =>
    cases m' with
    | nil => rfl
    | cons c' m' =>
      obtain ⟨-, hk', -⟩ := Memory.wfFrom_cons.mp hm'
      exact absurd (alike c'.1 hk').symm (Memory.read_cons_of_wfFrom hm').1
  | cons c m ih =>
    obtain ⟨k, v⟩ := c
    obtain ⟨-, hk, -, htail⟩ := Memory.wfFrom_cons.mp hm
    obtain ⟨listed, below⟩ := Memory.read_cons_of_wfFrom hm
    cases m' with
    | nil => exact absurd (alike k hk) listed
    | cons c' m' =>
      obtain ⟨k', v'⟩ := c'
      obtain ⟨-, hk', -, htail'⟩ := Memory.wfFrom_cons.mp hm'
      obtain ⟨listed', below'⟩ := Memory.read_cons_of_wfFrom hm'
      obtain hlt | rfl | hlt := Nat.lt_trichotomy k k'
      · exact absurd ((alike k hk).trans (below' k hlt)) listed
      · have words : v = v' := by
          have := alike k hk
          rwa [Memory.read_cons, Memory.read_cons, if_pos rfl, if_pos rfl] at this
        subst words
        rw [ih htail htail' (Memory.read_tail_eq htail htail' alike)]
      · exact absurd ((alike k' hk').symm.trans (below k' hlt)) listed'

/-! ### The obligations -/

/-- Settles O34: the memory's form, the count within the budget and the instruction that ended the run are
each kept by a step. -/
theorem stepKeepsTheInvariant : Obligations.StepKeepsTheInvariant := by
  rintro s t ⟨memory, budget, ended⟩ h
  exact ⟨step_wf h memory, step_withinBudget h budget, step_postMortem h ended⟩

/-- Settles O35: a new engine runs, has completed no step, and its memory is a load into the empty one. -/
theorem newEngineMeetsTheInvariant : Obligations.NewEngineMeetsTheInvariant := by
  intro program budget s h
  unfold engineNew at h
  split at h
  · rename_i hlen
    cases h
    exact ⟨Memory.wf_load Memory.wf_nil (by rwa [Nat.zero_add]),
      (withinBudget_iff _).mpr fun b _ => Nat.zero_le _, postMortem_of_running rfl⟩
  · cases h

/-- Settles O33: the reset state is the engine built from the empty program. -/
theorem resetMeetsTheInvariant : Obligations.ResetMeetsTheInvariant :=
  newEngineMeetsTheInvariant [] none State.reset rfl

/-- Settles O32: every field by its definition, the registers and memory words by their reset laws. -/
theorem resetHoldsTheResetValues : Obligations.ResetHoldsTheResetValues :=
  ⟨reset_reg, reset_pc, reset_status, fun a => Memory.read_nil a.toNat, reset_budget, reset_steps⟩

/-- Settles O36: the first listed addresses are equal, since each is the first that reads as written, and so
on behind them. -/
theorem canonicalMemoriesThatReadAlikeAreEqual : Obligations.CanonicalMemoriesThatReadAlikeAreEqual := by
  intro m m' hm hm' alike
  refine Memory.eq_of_read_eq hm hm' fun a ha => ?_
  have := alike (BitVec.ofNat 12 a)
  rwa [BitVec.toNat_ofNat, Nat.mod_eq_of_lt ha] at this

end Sys2Proof.Machine
end

section
/-! Runs (rules R102, R110, R111, R213, R215, R224): Run as Step repeated, its end under a budget, and the
budget that a halting run takes. -/

namespace Sys2Proof.Machine

/-! ### Run and Step -/

theorem running_or_outcome (x : Status) : x = .running ∨ ∃ o, x.outcome = some o := by
  cases x with
  | running => exact .inl rfl
  | halted => exact .inr ⟨_, rfl⟩
  | faulted r => exact .inr ⟨_, rfl⟩

/-- Decision D22: `Run` takes no step on a terminal engine. -/
theorem hostRun_of_outcome {s : State} {o : RunOutcome} (h : s.status.outcome = some o) (fuel : Nat) :
    hostRun fuel s = some (o, s) := by
  cases fuel <;> simp [hostRun, h]

section Running
variable {s t : State} (hr : s.status = .running)
include hr

theorem hostRun_zero : hostRun 0 s = none := by simp [hostRun, hr, Status.outcome]

theorem hostRun_succ (h : step s = .next t) (fuel : Nat) : hostRun (fuel + 1) s = hostRun fuel t := by
  simp [hostRun, hr, Status.outcome, h]

end Running

theorem step_of_hostStep {s t : State} (h : hostStep s = some (t.status, t)) : step s = .next t := by
  obtain ⟨u, hu⟩ := step_total s
  simp only [hostStep, hu, Option.some_inj, Prod.mk.injEq] at h
  rw [hu, h.2]

theorem hostRun_add {s : State} {fuel : Nat} {x : RunOutcome × State} (h : hostRun fuel s = some x)
    (more : Nat) : hostRun (fuel + more) s = some x := by
  induction fuel generalizing s with
  | zero =>
    obtain hr | ⟨o, ho⟩ := running_or_outcome s.status
    · cases (hostRun_zero hr).symm.trans h
    · rwa [hostRun_of_outcome ho] at h ⊢
  | succ n ih =>
    obtain hr | ⟨o, ho⟩ := running_or_outcome s.status
    · obtain ⟨t, ht⟩ := step_total s
      rw [Nat.succ_add, hostRun_succ hr ht]
      exact ih (hostRun_succ hr ht n ▸ h)
    · rwa [hostRun_of_outcome ho] at h ⊢

/-! ### Under a budget -/

/-- With `n` steps left, the run has an outcome by the step after them (rule R224). -/
theorem hostRun_of_steps_left {s : State} {b : BitVec 64} {n : Nat} (hb : s.budget = some b)
    (left : s.steps + n = b.toNat) : ∃ o t, hostRun (n + 1) s = some (o, t) ∧ t.steps ≤ b.toNat := by
  induction n generalizing s with
  | zero =>
    obtain hr | ⟨o, ho⟩ := running_or_outcome s.status
    · have used : budgetExhausted s = true := (budgetExhausted_iff s).mpr ⟨b, hb, left⟩
      refine ⟨.faulted .stepBudgetExceeded, raiseFault .stepBudgetExceeded s, ?_, Nat.le_of_eq left⟩
      rw [hostRun_succ hr (step_of_budgetExhausted hr used), hostRun_of_outcome rfl]
    · exact ⟨o, s, hostRun_of_outcome ho _, by omega⟩
  | succ n ih =>
    obtain hr | ⟨o, ho⟩ := running_or_outcome s.status
    · obtain ⟨t, ht⟩ := step_total s
      rw [hostRun_succ hr ht]
      obtain ⟨⟨r, hf⟩, hsteps⟩ | ⟨hs | hs, hsteps⟩ := step_faults_or_counts hr ht
      · exact ⟨.faulted r, t, hostRun_of_outcome (by rw [hf, Status.outcome]) _, by omega⟩
      · exact ih ((step_budget ht).trans hb) (by omega)
      · exact ⟨.halted, t, hostRun_of_outcome (by rw [hs, Status.outcome]) _, by omega⟩
    · exact ⟨o, s, hostRun_of_outcome ho _, by omega⟩

/-! ### A run that halts -/

/-- The first step of a run that halts counts, and either is the HALT or is followed by such a run. -/
theorem hostRun_halted_first {s t : State} {fuel : Nat} (hr : s.status = .running)
    (run : hostRun fuel s = some (.halted, t)) :
    ∃ n u, fuel = n + 1 ∧ step s = .next u ∧ u.steps = s.steps + 1 ∧
      ((u.status = .halted ∧ u = t) ∨ (u.status = .running ∧ hostRun n u = some (.halted, t))) := by
  obtain ⟨u, hu⟩ := step_total s
  cases fuel with
  | zero => cases (hostRun_zero hr).symm.trans run
  | succ n =>
    rw [hostRun_succ hr hu] at run
    obtain ⟨⟨r, hf⟩, -⟩ | ⟨hs | hs, hsteps⟩ := step_faults_or_counts hr hu
    · rw [hostRun_of_outcome (o := .faulted r) (by rw [hf, Status.outcome])] at run
      cases run
    · exact ⟨n, u, rfl, hu, hsteps, .inr ⟨hs, run⟩⟩
    · rw [hostRun_of_outcome (o := .halted) (by rw [hs, Status.outcome])] at run
      cases run
      exact ⟨n, t, rfl, hu, hsteps, .inl ⟨hs, rfl⟩⟩

theorem steps_lt_of_hostRun_halted {s t : State} {fuel : Nat} (hr : s.status = .running)
    (run : hostRun fuel s = some (.halted, t)) : s.steps < t.steps := by
  induction fuel generalizing s with
  | zero => cases (hostRun_zero hr).symm.trans run
  | succ n ih =>
    obtain ⟨m, u, hm, -, hsteps, ⟨-, hlast⟩ | ⟨hu, rest⟩⟩ := hostRun_halted_first hr run
    · rw [← hlast, hsteps]
      exact Nat.lt_succ_self _
    · cases hm
      have := ih hu rest
      omega

/-! ### The same run under another budget -/

theorem retire_setBudget (n : NextPc) (s : State) (B : Option (BitVec 64)) :
    retire n { s with budget := B } = { retire n s with budget := B } := by
  cases n with
  | seq =>
    by_cases hpc : s.pc = Config.lastPc
    · rw [retire_seq_last hpc, retire_seq_last (s := { s with budget := B }) hpc]
      rfl
    · rw [retire_seq_next hpc, retire_seq_next (s := { s with budget := B }) hpc]
      rfl
  | jump target => rfl
  | stop => rfl

/-- Rule R29: the budget is for the check alone; the execute stage carries it along. -/
theorem exec_setBudget {i : Instr} {s t : State} (h : exec i s = .next t) (B : Option (BitVec 64)) :
    exec i { s with budget := B } = .next { t with budget := B } := by
  have trap_same : trap i { s with budget := B } = trap i s := by cases i <;> rfl
  have request_same : request i { s with budget := B } = request i s := by cases i <;> rfl
  have effect_same : effect i { s with budget := B } = { effect i s with budget := B } := by
    cases i <;> rfl
  obtain ⟨r, ht, rfl⟩ | ⟨ht, rfl⟩ := exec_trap_or_retire h
  · exact exec_of_trap (trap_same.trans ht)
  · rw [exec_of_no_trap (trap_same.trans ht), request_same, effect_same, retire_setBudget]

/-- A step with no budget is the step under any budget that is not used up. -/
theorem step_setBudget {s t : State} {b : BitVec 64} (hr : s.status = .running) (hb : s.budget = none)
    (h : step s = .next t) (left : s.steps ≠ b.toNat) :
    step { s with budget := some b } = .next { t with budget := some b } := by
  have unlimited : budgetExhausted s = false := by
    rw [budgetExhausted_eq_false_iff, hb]
    nofun
  have within : budgetExhausted { s with budget := some b } = false := by
    rw [budgetExhausted_eq_false_iff]
    rintro _ ⟨⟩
    exact left
  rw [step_running hr unlimited] at h
  rw [step_running (s := { s with budget := some b }) hr within]
  exact exec_setBudget h (some b)

theorem hostRun_setBudget_succ {s t : State} {b : BitVec 64} (hr : s.status = .running)
    (hb : s.budget = none) (h : step s = .next t) (left : s.steps ≠ b.toNat) (fuel : Nat) :
    hostRun (fuel + 1) { s with budget := some b } = hostRun fuel { t with budget := some b } :=
  hostRun_succ (s := { s with budget := some b }) hr (step_setBudget hr hb h left) fuel

theorem hostRun_at_threshold {s : State} {b : BitVec 64} (hr : s.status = .running)
    (used : s.steps = b.toNat) (fuel : Nat) :
    hostRun (fuel + 1) { s with budget := some b } =
      some (.faulted .stepBudgetExceeded, raiseFault .stepBudgetExceeded { s with budget := some b }) := by
  have exhausted : budgetExhausted { s with budget := some b } = true :=
    (budgetExhausted_iff _).mpr ⟨b, rfl, used⟩
  rw [hostRun_succ (s := { s with budget := some b }) hr (step_of_budgetExhausted hr exhausted),
    hostRun_of_outcome rfl]

/-! ### The self-jump -/

theorem step_of_selfJump {s : State} (hr : s.status = .running) (hb : s.budget = none)
    (jump : decode (fetchWord s) = .jmp s.pc) : step s = .next s.countStep := by
  have unlimited : budgetExhausted s = false := by
    rw [budgetExhausted_eq_false_iff, hb]
    nofun
  rw [step_running hr unlimited, jump, exec_jmp, retire_jump]
  rfl

/-! ### The obligations -/

/-- Settles O38: by induction on the steps that are left of the budget. -/
theorem runUnderBudgetReturns : Obligations.RunUnderBudgetReturns :=
  fun _ _ hb hs => hostRun_of_steps_left hb (Nat.add_sub_cancel' hs)

/-- Settles O39: by induction on the run; below the threshold each step is the one without a budget, and at
the threshold the next step faults while the run without a budget counts on. -/
theorem budgetThresholdIsTheTrueInstructionCount : Obligations.BudgetThresholdIsTheTrueInstructionCount := by
  intro s t fuel b hb hr run hs
  induction fuel generalizing s with
  | zero => cases (hostRun_zero hr).symm.trans run
  | succ n ih =>
    have counted := steps_lt_of_hostRun_halted hr run
    by_cases used : s.steps = b.toNat
    · exact ⟨fun _ => by omega, fun _ => ⟨_, hostRun_at_threshold hr used n, used⟩⟩
    obtain ⟨m, u, hm, hu, hsteps, last⟩ := hostRun_halted_first hr run
    cases hm
    rw [hostRun_setBudget_succ hr hb hu used]
    obtain ⟨halted, rfl⟩ | ⟨running, rest⟩ := last
    · refine ⟨fun _ => hostRun_of_outcome ?_ n, fun _ => by omega⟩
      rw [halted, Status.outcome]
    · exact ih u ((step_budget hu).trans hb) running rest (by omega)

/-- Settles O40: the self-jump's step changes the step count alone, so it is the same self-jump again. -/
theorem selfJumpWithoutBudgetNeverEnds : Obligations.SelfJumpWithoutBudgetNeverEnds := by
  intro s hr hb jump fuel
  induction fuel generalizing s with
  | zero => exact hostRun_zero hr
  | succ n ih => exact (hostRun_succ hr (step_of_selfJump hr hb jump) n).trans (ih s.countStep hr hb jump)

/-- Settles O41: the two arms of `Run`, and an induction on the number of steps it is observed for. -/
theorem runIsStepRepeated : Obligations.RunIsStepRepeated :=
  ⟨fun _ _ fuel ho => hostRun_of_outcome ho fuel,
    fun _ _ fuel hr hs => hostRun_succ hr (step_of_hostStep hs) fuel,
    fun _ _ more _ h => hostRun_add h more⟩

end Sys2Proof.Machine
end

section
/-! The host's operations (rules R37, R53, R180, R211, R212, R214): New, LoadProgram, the accessors and the
status codes. -/

namespace Sys2Proof.Machine

/-! ### New and LoadProgram -/

section Words
variable {words : List MemWord}

theorem engineNew_of_le (h : words.length ≤ Config.memWords) (budget : Option (BitVec 64)) :
    engineNew words budget =
      .ok { State.reset with mem := Memory.load [] 0 words, budget := budget } := if_pos h

theorem engineNew_of_lt (h : Config.memWords < words.length) (budget : Option (BitVec 64)) :
    engineNew words budget = .error .programTooLarge := if_neg (Nat.not_le.mpr h)

theorem loadProgram_of_le (h : words.length ≤ Config.memWords) (s : State) :
    loadProgram words s = .ok { s with mem := Memory.load s.mem 0 words } := if_pos h

theorem loadProgram_of_lt (h : Config.memWords < words.length) (s : State) :
    loadProgram words s = .error .programTooLarge := if_neg (Nat.not_le.mpr h)

/-- A load from address 0: the words from there on, and above them the memory as it was. -/
theorem Memory.read_load_zero {m : Memory} (hm : Memory.wf m = true)
    (h : words.length ≤ Config.memWords) (a : Nat) :
    Memory.read (Memory.load m 0 words) a = words.getD a (Memory.read m a) := by
  rw [Memory.read_load hm (by rwa [Nat.zero_add]), if_pos (Nat.zero_le a), Nat.sub_zero]

end Words

/-! ### The accessors -/

section Accessors
variable (s : State)

theorem readRegister_toNat (r : RegIdx) : readRegister r.toNat s = .ok (s.reg r) := by
  have inside : r.toNat < Config.numRegs := r.isLt
  rw [readRegister, if_pos inside, BitVec.ofNat_toNat, BitVec.setWidth_eq]

theorem writeRegister_toNat (r : RegIdx) (v : Word) :
    writeRegister r.toNat v s = .ok (s.setReg r v) := by
  have inside : r.toNat < Config.numRegs := r.isLt
  rw [writeRegister, if_pos inside, BitVec.ofNat_toNat, BitVec.setWidth_eq]

theorem readMemory_toNat (a : Addr) : readMemory a.toNat s = .ok (s.readMem a) := by
  have inside : a.toNat < Config.memWords := a.isLt
  rw [readMemory, if_pos inside, BitVec.ofNat_toNat, BitVec.setWidth_eq]

theorem writeMemory_toNat (a : Addr) (v : MemWord) :
    writeMemory a.toNat v s = .ok (s.writeMem a v) := by
  have inside : a.toNat < Config.memWords := a.isLt
  rw [writeMemory, if_pos inside, BitVec.ofNat_toNat, BitVec.setWidth_eq]

end Accessors

/-! ### The status codes -/

/-- The reason with a code of rule R37: what a reader of the status port recovers. -/
def faultOfCode (c : BitVec 3) : Fault :=
  match c.toNat with
  | 1 => .unknownOpcode
  | 2 => .divisionByZero
  | 3 => .invalidRegister
  | 4 => .invalidAddress
  | 5 => .programCounterOverflow
  | _ => .stepBudgetExceeded

/-- The status with the two codes of rule R37. -/
def statusOfCodes (c : BitVec 2) (reason : BitVec 3) : Status :=
  match c.toNat with
  | 0 => .running
  | 1 => .halted
  | _ => .faulted (faultOfCode reason)

theorem statusOfCodes_code (x : Status) : statusOfCodes x.code x.reasonCode = x := by
  cases x with
  | running | halted => rfl
  | faulted r => cases r <;> rfl

/-- Decision D16: a reason's code is 1 to 6. -/
theorem Fault.code_used (r : Fault) : r.code ≠ 0#3 ∧ r.code ≠ 7#3 := by
  cases r <;> decide

theorem Status.codes_used (x : Status) :
    x.code ≠ 3#2 ∧ x.reasonCode ≠ 7#3 ∧ (x.reasonCode = 0#3 ↔ x.code ≠ 2#2) := by
  cases x with
  | running | halted => decide
  | faulted r =>
    obtain ⟨not_zero, not_seven⟩ := r.code_used
    simp [Status.code, Status.reasonCode, not_zero, not_seven]

/-! ### The obligations -/

/-- Settles O42: `New` is the reset state with a load into the empty memory. -/
theorem newBuildsTheResetState : Obligations.NewBuildsTheResetState := by
  refine fun program budget => ⟨fun h => ?_, fun h => engineNew_of_lt h budget⟩
  exact ⟨_, engineNew_of_le h budget, reset_reg, rfl, rfl, rfl, rfl,
    fun a => Memory.read_load_zero Memory.wf_nil h a.toNat⟩

/-- Settles O43: `LoadProgram` is a load into the memory there is. -/
theorem loadProgramWritesMemoryOnly : Obligations.LoadProgramWritesMemoryOnly := by
  refine fun words s hm => ⟨fun h => ?_, fun h => loadProgram_of_lt h s⟩
  exact ⟨_, loadProgram_of_le h s, rfl, rfl, rfl, rfl, rfl, Memory.wf_load hm (by rwa [Nat.zero_add]),
    fun a => Memory.read_load_zero hm h a.toNat⟩

/-- Settles O44: an index of its field's width passes the check of its accessor, and no larger one does. -/
theorem accessorsCheckTheirBounds : Obligations.AccessorsCheckTheirBounds := fun s =>
  ⟨readRegister_toNat s, fun _ h => if_neg (Nat.not_lt.mpr h), readMemory_toNat s,
    fun _ h => if_neg (Nat.not_lt.mpr h), writeRegister_toNat s, fun _ _ h => if_neg (Nat.not_lt.mpr h),
    writeMemory_toNat s, fun _ _ h => if_neg (Nat.not_lt.mpr h)⟩

/-- Settles O45: the status can be read back from its two codes. -/
theorem statusCodesTellStatusesApart : Obligations.StatusCodesTellStatusesApart := by
  refine ⟨fun x y hcode hreason => ?apart, ⟨rfl, rfl, fun _ => rfl⟩,
    ⟨rfl, rfl, rfl, rfl, rfl, rfl, rfl, rfl⟩, fun s => ⟨rfl, rfl, rfl, rfl, s.status.codes_used⟩⟩
  case apart => rw [← statusOfCodes_code x, ← statusOfCodes_code y, hcode, hreason]

end Sys2Proof.Machine
end

section
/-! The instructions' results (rules R108, R121, R130 to R135, R170): the word STORE writes, and the value the
arithmetic instructions write. -/

namespace Sys2Proof.Machine

/-! ### The destination after an arithmetic instruction -/

@[simp] theorem arithmetic_reg_same (f : Word → Word → Word) (rd rs1 rs2 : RegIdx) (s : State) :
    (arithmetic f rd rs1 rs2 s).reg rd = f (s.reg rs1) (s.reg rs2) := by
  rw [arithmetic, retire_reg, reg_setReg_same]

theorem exec_div_nonzero {rs2 : RegIdx} {s : State} (h : s.reg rs2 ≠ 0#32) (rd rs1 : RegIdx) :
    exec (.div rd rs1 rs2) s = .next (arithmetic divValue rd rs1 rs2 s) := by
  rw [exec_div, if_neg (mt (isZero_iff _).mp h)]

/-! ### The values -/

theorem addValue_eq_add (a b : Word) : addValue a b = a + b := by
  rw [addValue, wrap32, signedValue, signedValue, BitVec.ofInt_add, BitVec.ofInt_toInt, BitVec.ofInt_toInt]

theorem subValue_eq_sub (a b : Word) : subValue a b = a - b := by
  rw [subValue, wrap32, signedValue, signedValue, Int.sub_eq_add_neg, BitVec.ofInt_add, BitVec.ofInt_neg,
    BitVec.ofInt_toInt, BitVec.ofInt_toInt, BitVec.sub_eq_add_neg]

theorem mulValue_eq_mul (a b : Word) : mulValue a b = a * b := by
  rw [mulValue, wrap32, signedValue, signedValue, BitVec.ofInt_mul, BitVec.ofInt_toInt, BitVec.ofInt_toInt]

theorem divValue_eq_tdiv (a b : Word) : divValue a b = BitVec.ofInt 32 (a.toInt.tdiv b.toInt) := by
  rw [divValue, truncDiv_eq_tdiv]
  rfl

theorem divValue_self {a : Word} (h : a ≠ 0#32) : divValue a a = 1#32 := by
  rw [divValue_eq_tdiv, Int.tdiv_self (by rwa [← BitVec.toInt_zero, BitVec.toInt_ne])]
  rfl

/-- The quotient leaves the signed 32-bit range at one pair only (decision D3): a divisor of magnitude 2 or
more halves the magnitude, and the others give the dividend or its negation. -/
theorem tdiv_in_range {a b : Int} (lo : -2147483648 ≤ a) (hi : a ≤ 2147483647)
    (hne : ¬(a = -2147483648 ∧ b = -1)) :
    -2147483648 ≤ a.tdiv b ∧ a.tdiv b ≤ 2147483647 := by
  obtain hb | hb := Nat.lt_or_ge b.natAbs 2
  · obtain rfl | rfl | rfl : b = 0 ∨ b = 1 ∨ b = -1 := by omega
    · simp
    · simpa using ⟨lo, hi⟩
    · rw [Int.tdiv_neg, Int.tdiv_one]
      omega
  · have half : (a.tdiv b).natAbs ≤ a.natAbs / 2 := by
      rw [Int.natAbs_tdiv]
      exact Nat.div_le_div_left hb (by decide)
    omega

theorem toInt_divValue {a b : Word} (hne : ¬(a.toInt = -2147483648 ∧ b.toInt = -1)) :
    (divValue a b).toInt = a.toInt.tdiv b.toInt := by
  obtain ⟨lo, hi⟩ := tdiv_in_range (BitVec.le_toInt a) (Int.le_of_lt_add_one BitVec.toInt_lt) hne
  rw [divValue_eq_tdiv]
  exact toInt_wrap32 lo hi

theorem toInt_reg_arithmetic {f : Word → Word → Word} {rd rs1 rs2 : RegIdx} {s : State} {n : Int}
    (lo : -2147483648 ≤ n) (hi : n ≤ 2147483647) (h : f (s.reg rs1) (s.reg rs2) = wrap32 n) :
    ((arithmetic f rd rs1 rs2 s).reg rd).toInt = n := by
  rw [arithmetic_reg_same, h, toInt_wrap32 lo hi]

/-! ### The obligations -/

/-- Settles O11: Advance keeps the memory, in which the written word reads back. -/
theorem storeWritesLowHalf : Obligations.StoreWritesLowHalf := by
  intro rs addr s
  refine ⟨_, exec_store rs addr s, fun hm => ?word, fun hpc => ?advance, fun hpc => ?overflow⟩
  case word =>
    rw [retire_readMem, ← lowHalf_toNat]
    exact congrArg BitVec.toNat (readMem_writeMem_same hm _ _)
  case advance => exact retire_seq_advances (s := s.writeMem _ _) hpc
  case overflow => exact retire_seq_overflows (s := s.writeMem _ _) hpc

/-- Settles O12: each of the three writes its value function's result. -/
theorem addSubMulWriteWrappedResult : Obligations.AddSubMulWriteWrappedResult := fun rd rs1 rs2 s =>
  ⟨⟨_, exec_add rd rs1 rs2 s, arithmetic_reg_same addValue rd rs1 rs2 s⟩,
    ⟨_, exec_sub rd rs1 rs2 s, arithmetic_reg_same subValue rd rs1 rs2 s⟩,
    ⟨_, exec_mul rd rs1 rs2 s, arithmetic_reg_same mulValue rd rs1 rs2 s⟩⟩

/-- Settles O13: the spec's quotient is Lean's truncating division. -/
theorem divWritesTruncatedQuotient : Obligations.DivWritesTruncatedQuotient := by
  intro rd rs1 rs2 s h
  refine ⟨_, exec_div_nonzero h rd rs1, ?_⟩
  rw [arithmetic_reg_same, divValue_eq_tdiv]

/-- Settles O14: the fault is raised before the write. -/
theorem divByZeroFaultsAndWritesNothing : Obligations.DivByZeroFaultsAndWritesNothing :=
  fun rd rs1 _ _ h => exec_div_zero h rd rs1

/-- Settles O18: the operand bits of a HALT word are ignored, and its STOP request leaves `pc`. -/
theorem haltStopsAtItsOwnAddress : Obligations.HaltStopsAtItsOwnAddress := by
  refine ⟨decode_packA12_halt, fun s => ?_⟩
  rw [exec_halt, retire_stop]
  rfl

/-- Settles O20: the value functions take the register's old value at both operands. -/
theorem destinationThatIsASourceUsesOldValue : Obligations.DestinationThatIsASourceUsesOldValue := by
  refine fun r s => ⟨⟨_, exec_add r r r s, ?add⟩, ⟨_, exec_sub r r r s, ?sub⟩,
    fun h => ⟨_, exec_div_nonzero h r r, ?div⟩⟩
  case add => rw [arithmetic_reg_same, addValue_eq_add]
  case sub => rw [arithmetic_reg_same, subValue_eq_sub, BitVec.sub_self]
  case div => rw [arithmetic_reg_same, divValue_self h]

/-- Settles O47: an exact result in the signed range survives the wrap. -/
theorem resultsThatFitAreExact : Obligations.ResultsThatFitAreExact := by
  refine fun rd rs1 rs2 s t n lo hi => ⟨fun hn h => ?add, fun hn h => ?sub, fun hn h => ?mul⟩
  case add | sub | mul =>
    cases h
    exact toInt_reg_arithmetic lo hi (congrArg wrap32 hn.symm)

/-- Settles O48: the quotient is in the signed range but at the one pair, where the wrap gives the dividend
again. -/
theorem divisionIsExactButForOneOverflow : Obligations.DivisionIsExactButForOneOverflow := by
  intro rd rs1 rs2 s t hz h
  cases (exec_div_nonzero hz rd rs1).symm.trans h
  rw [arithmetic_reg_same]
  refine ⟨toInt_divValue, fun ha hb => ?_⟩
  rw [divValue_eq_tdiv, ha, hb]
  decide

/-- Settles O49: each result is the machine operation on words, which has no sign. -/
theorem wrappedResultsDoNotDependOnSignedness : Obligations.WrappedResultsDoNotDependOnSignedness := by
  refine fun a b => ⟨?add, ?sub, ?mul⟩
  case add => simp only [addValue_eq_add, BitVec.ofNat_add, BitVec.ofNat_toNat, BitVec.setWidth_eq]
  case sub =>
    simp only [subValue_eq_sub, Int.sub_eq_add_neg, BitVec.ofInt_add, BitVec.ofInt_neg,
      BitVec.ofInt_natCast, BitVec.ofNat_toNat, BitVec.setWidth_eq, BitVec.sub_eq_add_neg]
  case mul => simp only [mulValue_eq_mul, BitVec.ofNat_mul, BitVec.ofNat_toNat, BitVec.setWidth_eq]

end Sys2Proof.Machine
end

section
/-! Encoding a source-level instruction (rules R82, R91, R95): the word of operands that fit, and the error of
one that does not. -/

namespace Sys2Proof.Machine

/-! ### The numbers of packed words -/

theorem append_toNat {m n : Nat} (x : BitVec m) (y : BitVec n) :
    (x ++ y).toNat = x.toNat * 2 ^ n + y.toNat := by
  rw [BitVec.toNat_append, ← Nat.shiftLeft_add_eq_or_of_lt y.isLt, Nat.shiftLeft_eq]

theorem packRI_ofNat (op : OpField) {r k : Nat} (hr : r ≤ 15) (hk : k ≤ 255) :
    packRI op (BitVec.ofNat 4 r) (BitVec.ofNat 8 k) = BitVec.ofNat 16 (4096 * op.toNat + 256 * r + k) := by
  have hop := op.isLt
  apply BitVec.eq_of_toNat_eq
  simp only [packRI, append_toNat, BitVec.toNat_ofNat]
  omega

theorem packRRR_ofNat (op : OpField) {a b c : Nat} (ha : a ≤ 15) (hb : b ≤ 15) (hc : c ≤ 15) :
    packRRR op (BitVec.ofNat 4 a) (BitVec.ofNat 4 b) (BitVec.ofNat 4 c) =
      BitVec.ofNat 16 (4096 * op.toNat + 256 * a + 16 * b + c) := by
  have hop := op.isLt
  apply BitVec.eq_of_toNat_eq
  simp only [packRRR, append_toNat, BitVec.toNat_ofNat]
  omega

theorem packA12_ofNat (op : OpField) {k : Nat} (hk : k ≤ 4095) :
    packA12 op (BitVec.ofNat 12 k) = BitVec.ofNat 16 (4096 * op.toNat + k) := by
  have hop := op.isLt
  apply BitVec.eq_of_toNat_eq
  simp only [packA12, append_toNat, BitVec.toNat_ofNat]
  omega

/-! ### `encodeRaw` -/

theorem encodeRaw_eq_ok_iff {r : RawInstr} {w : MemWord} :
    encodeRaw r = .ok w ↔ r.wellFormed = true ∧ (instrOfRaw r).bind encode = some w := by
  unfold encodeRaw
  split
  · rename_i hwf
    cases (instrOfRaw r).bind encode <;> simp [hwf]
  · simp [*]

theorem encodeRaw_of_not_wellFormed {r : RawInstr} (h : ¬r.wellFormed = true) :
    encodeRaw r = .error .operandOutOfRange := if_neg h

/-- What holds of every mnemonic with a register and a short operand. -/
theorem encodeRaw_RI {op : Mnemonic} {code : OpField} (limits : op.limits = [15, 255])
    (packs : ∀ r k, (instrOfRaw ⟨op, [r, k]⟩).bind encode =
      some (packRI code (BitVec.ofNat 4 r) (BitVec.ofNat 8 k))) (r k : Nat) :
    (r ≤ 15 ∧ k ≤ 255 →
      encodeRaw ⟨op, [r, k]⟩ = .ok (BitVec.ofNat 16 (4096 * code.toNat + 256 * r + k))) ∧
    (15 < r ∨ 255 < k → encodeRaw ⟨op, [r, k]⟩ = .error .operandOutOfRange) := by
  have fits : RawInstr.wellFormed ⟨op, [r, k]⟩ = true ↔ r ≤ 15 ∧ k ≤ 255 := by
    simp [RawInstr.wellFormed, RawInstr.countOk, RawInstr.rangesOk, limits]
  refine ⟨fun ⟨hr, hk⟩ => encodeRaw_eq_ok_iff.mpr ⟨fits.mpr ⟨hr, hk⟩, ?_⟩,
    fun h => encodeRaw_of_not_wellFormed ?_⟩
  · rw [packs, packRI_ofNat code hr hk]
  · rw [fits]
    omega

/-- What holds of every mnemonic with three registers. -/
theorem encodeRaw_RRR {op : Mnemonic} {code : OpField} (limits : op.limits = [15, 15, 15])
    (packs : ∀ a b c, (instrOfRaw ⟨op, [a, b, c]⟩).bind encode =
      some (packRRR code (BitVec.ofNat 4 a) (BitVec.ofNat 4 b) (BitVec.ofNat 4 c))) (a b c : Nat) :
    (a ≤ 15 ∧ b ≤ 15 ∧ c ≤ 15 → encodeRaw ⟨op, [a, b, c]⟩ =
      .ok (BitVec.ofNat 16 (4096 * code.toNat + 256 * a + 16 * b + c))) ∧
    (15 < a ∨ 15 < b ∨ 15 < c → encodeRaw ⟨op, [a, b, c]⟩ = .error .operandOutOfRange) := by
  have fits : RawInstr.wellFormed ⟨op, [a, b, c]⟩ = true ↔ a ≤ 15 ∧ b ≤ 15 ∧ c ≤ 15 := by
    simp [RawInstr.wellFormed, RawInstr.countOk, RawInstr.rangesOk, limits]
  refine ⟨fun ⟨ha, hb, hc⟩ => encodeRaw_eq_ok_iff.mpr ⟨fits.mpr ⟨ha, hb, hc⟩, ?_⟩,
    fun h => encodeRaw_of_not_wellFormed ?_⟩
  · rw [packs, packRRR_ofNat code ha hb hc]
  · rw [fits]
    omega

theorem encodeRaw_jmp (k : Nat) :
    (k ≤ 4095 → encodeRaw ⟨.jmp, [k]⟩ = .ok (BitVec.ofNat 16 (32768 + k))) ∧
    (4095 < k → encodeRaw ⟨.jmp, [k]⟩ = .error .operandOutOfRange) := by
  have fits : RawInstr.wellFormed ⟨.jmp, [k]⟩ = true ↔ k ≤ 4095 := by
    simp [RawInstr.wellFormed, RawInstr.countOk, RawInstr.rangesOk, Mnemonic.limits]
  refine ⟨fun h => encodeRaw_eq_ok_iff.mpr ⟨fits.mpr h, ?_⟩, fun h => encodeRaw_of_not_wellFormed ?_⟩
  · exact congrArg some (packA12_ofNat 0b1000#4 h)
  · rw [fits]
    omega

/-- Settles O52: an operand within its limit is the number its field holds, in each of the three formats with
operands. -/
theorem encodedOperandsAreNeverWrapped : Obligations.EncodedOperandsAreNeverWrapped := by
  refine ⟨fun op code h => ?_, fun op code h => ?_, encodeRaw_jmp, rfl⟩ <;>
    simp only [List.mem_cons, List.not_mem_nil, or_false, Prod.mk.injEq] at h
  · obtain ⟨rfl, rfl⟩ | ⟨rfl, rfl⟩ | ⟨rfl, rfl⟩ | ⟨rfl, rfl⟩ := h
    · exact encodeRaw_RI (code := 0b0001#4) rfl fun _ _ => rfl
    · exact encodeRaw_RI (code := 0b0010#4) rfl fun _ _ => rfl
    · exact encodeRaw_RI (code := 0b1001#4) rfl fun _ _ => rfl
    · exact encodeRaw_RI (code := 0b1010#4) rfl fun _ _ => rfl
  · obtain ⟨rfl, rfl⟩ | ⟨rfl, rfl⟩ | ⟨rfl, rfl⟩ | ⟨rfl, rfl⟩ := h
    · exact encodeRaw_RRR (code := 0b0011#4) rfl fun _ _ _ => rfl
    · exact encodeRaw_RRR (code := 0b0100#4) rfl fun _ _ _ => rfl
    · exact encodeRaw_RRR (code := 0b0101#4) rfl fun _ _ _ => rfl
    · exact encodeRaw_RRR (code := 0b0110#4) rfl fun _ _ _ => rfl

end Sys2Proof.Machine
end

section
/-! Pass 2 of the assembler (rules R93, R94, R96, R98): the value of an operand, an instruction line, and the
words of all instruction lines. -/

namespace Sys2Proof.Machine

/-! ### Operands -/

/-- The value of an operand token, if it has one, in the order of rule R94. -/
def tokenValue (labels : Labels) (t : Text) : Option Nat :=
  (registerValue t).or ((labelValue labels t).or (literalValue t))

theorem resolveOperand_eq (labels : Labels) (t : Text) :
    resolveOperand labels t = (tokenValue labels t).elim (.error .unresolvedOperand) .ok := by
  unfold resolveOperand tokenValue
  cases registerValue t with
  | some n => rfl
  | none =>
    cases labelValue labels t with
    | some n => rfl
    | none => cases literalValue t <;> rfl

theorem resolveOperands_of_values {labels : Labels} {operands : List Text} {values : List Nat}
    (h : operands.map (tokenValue labels) = values.map some) :
    resolveOperands labels operands = .ok values := by
  induction operands generalizing values with
  | nil =>
    obtain rfl : values = [] := by simpa using h.symm
    rfl
  | cons t ts ih =>
    cases values with
    | nil => simp at h
    | cons n ns =>
      simp only [List.map_cons, List.cons.injEq] at h
      obtain ⟨ht, hts⟩ := h
      simp [resolveOperands, resolveOperand_eq, ht, ih hts]

theorem resolveOperands_of_unresolved {labels : Labels} {operands : List Text}
    (h : ∃ t ∈ operands, tokenValue labels t = none) :
    resolveOperands labels operands = .error .unresolvedOperand := by
  induction operands with
  | nil => simp at h
  | cons t ts ih =>
    cases ht : tokenValue labels t with
    | none => simp [resolveOperands, resolveOperand_eq, ht]
    | some n =>
      have rest : ∃ u ∈ ts, tokenValue labels u = none := by simpa [ht] using h
      simp [resolveOperands, resolveOperand_eq, ht, ih rest]

/-! ### An instruction line -/

section Line
variable {labels : Labels} {m : Text} {operands : List Text}

theorem assembleLine_of_unknown_mnemonic (h : mnemonicOf m = none) :
    assembleLine labels (m :: operands) = .error .unknownInstruction := by
  simp [assembleLine, h]

variable {op : Mnemonic} (hop : mnemonicOf m = some op)
include hop

theorem assembleLine_of_count_ne (hcount : operands.length ≠ op.limits.length) :
    assembleLine labels (m :: operands) = .error .unresolvedOperand := by
  simp [assembleLine, hop, hcount]

theorem assembleLine_of_unresolved (hcount : operands.length = op.limits.length) {e : AssembleError}
    (h : resolveOperands labels operands = .error e) :
    assembleLine labels (m :: operands) = .error e := by
  simp [assembleLine, hop, hcount, h]

theorem assembleLine_of_values (hcount : operands.length = op.limits.length) {values : List Nat}
    (h : resolveOperands labels operands = .ok values) :
    assembleLine labels (m :: operands) = encodeRaw ⟨op, values⟩ := by
  simp [assembleLine, hop, hcount, h]

end Line

theorem exists_encodeRaw_of_assembleLine {labels : Labels} {tokens : List Text} {w : MemWord}
    (h : assembleLine labels tokens = .ok w) : ∃ r, encodeRaw r = .ok w := by
  cases tokens with
  | nil => cases h
  | cons m operands =>
    cases hop : mnemonicOf m with
    | none => cases (assembleLine_of_unknown_mnemonic hop).symm.trans h
    | some op =>
      by_cases hcount : operands.length = op.limits.length
      · cases hres : resolveOperands labels operands with
        | error e => cases (assembleLine_of_unresolved hop hcount hres).symm.trans h
        | ok values => exact ⟨⟨op, values⟩, (assembleLine_of_values hop hcount hres).symm.trans h⟩
      · cases (assembleLine_of_count_ne hop hcount).symm.trans h

/-! ### All instruction lines -/

/-- Pass 2 is one line after another: the words are the instruction lines' own. -/
theorem map_assembleLine_of_assembleLines {labels : Labels} {lines : List SourceLine}
    {words : List MemWord} (h : assembleLines labels lines = .ok words) :
    (instructionLines lines).map (assembleLine labels) = words.map .ok := by
  induction lines generalizing words with
  | nil =>
    cases h
    rfl
  | cons l ls ih =>
    cases l with
    | blank | comment | label name => exact ih h
    | instruction tokens =>
      simp only [assembleLines] at h
      split at h
      · cases h
      · rename_i w hw
        split at h
        · cases h
        · rename_i ws hws
          cases h
          simp [hw, ih hws]

/-! ### The obligations -/

/-- Settles O57: the checks of a line in their order, with the operands resolved by `tokenValue`. -/
theorem instructionLinesAssembleInOrder : Obligations.InstructionLinesAssembleInOrder := by
  refine fun labels m operands => ⟨assembleLine_of_unknown_mnemonic, fun op hop =>
    ⟨assembleLine_of_count_ne hop, fun hcount h => ?unresolved, fun hcount values h => ?encoded⟩⟩
  case unresolved =>
    obtain ⟨t, ht, register, label, literal⟩ := h
    have no_value : tokenValue labels t = none := by simp [tokenValue, register, label, literal]
    exact assembleLine_of_unresolved hop hcount (resolveOperands_of_unresolved ⟨t, ht, no_value⟩)
  case encoded => exact assembleLine_of_values hop hcount (resolveOperands_of_values h)

/-- Settles O50: each word is that of some line, a line's word is an encoding, and decode undoes encode. -/
theorem assembledWordsAreCanonical : Obligations.AssembledWordsAreCanonical := by
  intro text words labels h w hw
  obtain ⟨-, pass2⟩ := assemble_eq_ok_iff.mp h
  have line : Except.ok w ∈ (instructionLines (programLines text)).map (assembleLine labels) := by
    rw [map_assembleLine_of_assembleLines pass2]
    exact List.mem_map_of_mem hw
  obtain ⟨tokens, -, htokens⟩ := List.mem_map.mp line
  obtain ⟨r, hr⟩ := exists_encodeRaw_of_assembleLine htokens
  obtain ⟨-, hbind⟩ := encodeRaw_eq_ok_iff.mp hr
  obtain ⟨i, -, hi⟩ := Option.bind_eq_some_iff.mp hbind
  exact ⟨i, by rw [← encode_isSome, hi, Option.isSome_some], hi, decode_of_encode_eq hi⟩

end Sys2Proof.Machine
end

section
/-! Pass 1 of the assembler (rules R92, R95, R97): the bindings of the label lines by position, and which of
its three answers the pass gives. -/

namespace Sys2Proof.Machine

/-! ### The label lines -/

/-- The name of a label line. -/
def labelName : SourceLine → Option Text
  | .blank => none
  | .comment => none
  | .label name => some name
  | .instruction _ => none

theorem labelName_eq_some_iff {l : SourceLine} {name : Text} : labelName l = some name ↔ l = .label name := by
  cases l <;> simp [labelName]

/-- The label lines with the number of instruction lines before each, counted on from `n` (rule R92). -/
def labelBindings : List SourceLine → Nat → Labels
  | [], _ => []
  | .blank :: ls, n => labelBindings ls n
  | .comment :: ls, n => labelBindings ls n
  | .label name :: ls, n => (name, n) :: labelBindings ls n
  | .instruction _ :: ls, n => labelBindings ls (n + 1)

theorem mem_labelBindings {ls : List SourceLine} {n : Nat} {l : Text × Nat} :
    l ∈ labelBindings ls n ↔ ∃ p, ls[p]? = some (.label l.1) ∧ l.2 = n + instructionsBefore ls p := by
  obtain ⟨name, a⟩ := l
  induction ls generalizing n with
  | nil => simp [labelBindings]
  | cons line ls ih =>
    rw [← Nat.or_exists_add_one]
    cases line with
    | blank | comment => simp [labelBindings, ih]
    | label other => simp [labelBindings, ih, eq_comm]
    | instruction tokens => simp [labelBindings, ih, Nat.add_assoc]

theorem map_fst_labelBindings (ls : List SourceLine) (n : Nat) :
    (labelBindings ls n).map Prod.fst = ls.filterMap labelName := by
  induction ls generalizing n with
  | nil => rfl
  | cons line ls ih => cases line <;> simp [labelBindings, labelName, List.filterMap_cons, ih]

/-- All label names are different exactly when each stands on one line. -/
theorem nodup_labelNames_iff (ls : List SourceLine) :
    (ls.filterMap labelName).Nodup ↔ ∀ (p q : Nat) (name : Text),
      ls[p]? = some (.label name) → ls[q]? = some (.label name) → p = q := by
  rw [List.Nodup, List.pairwise_filterMap, List.pairwise_iff_getElem]
  simp only [labelName_eq_some_iff]
  constructor
  · intro different p q name hp hq
    obtain ⟨hp, ep⟩ := List.getElem?_eq_some_iff.mp hp
    obtain ⟨hq, eq⟩ := List.getElem?_eq_some_iff.mp hq
    obtain hlt | same | hlt := Nat.lt_trichotomy p q
    · exact absurd rfl (different p q hp hq hlt name ep name eq)
    · exact same
    · exact absurd rfl (different q p hq hp hlt name eq name ep)
  · rintro unique p q hp hq hlt name ep _ eq rfl
    exact Nat.ne_of_lt hlt (unique p q name (List.getElem?_eq_some_iff.mpr ⟨hp, ep⟩)
      (List.getElem?_eq_some_iff.mpr ⟨hq, eq⟩))

theorem instructionsBefore_le (ls : List SourceLine) (p : Nat) :
    instructionsBefore ls p ≤ (instructionLines ls).length :=
  ((List.take_sublist p ls).filterMap _).length_le

/-! ### The pass -/

/-- The pass answers the table with the bindings behind it, when all names are different and all addresses
inside the memory, or the error of a name or of an address that is not so. -/
theorem collectLabels_cases {labels : Labels} (different : (labels.map Prod.fst).Nodup)
    (ls : List SourceLine) (n : Nat) :
    (collectLabels ls n labels = .ok (labels ++ labelBindings ls n) ∧
      ((labels ++ labelBindings ls n).map Prod.fst).Nodup ∧ ∀ l ∈ labelBindings ls n, l.2 < 4096) ∨
    (collectLabels ls n labels = .error .duplicateLabel ∧
      ¬((labels ++ labelBindings ls n).map Prod.fst).Nodup) ∨
    (collectLabels ls n labels = .error .operandOutOfRange ∧ ∃ l ∈ labelBindings ls n, 4096 ≤ l.2) := by
  induction ls generalizing n labels with
  | nil => exact .inl ⟨by simp [collectLabels, labelBindings], by simpa [labelBindings], nofun⟩
  | cons line ls ih =>
    cases line with
    | blank | comment => exact ih different n
    | instruction tokens => exact ih different (n + 1)
    | label name =>
      by_cases bound : name ∈ labels.map Prod.fst
      · refine .inr (.inl ⟨collectLabels_duplicate bound, fun nodup => ?_⟩)
        rw [List.map_append] at nodup
        exact List.disjoint_of_nodup_append nodup bound (List.mem_map_of_mem List.mem_cons_self)
      rw [collectLabels_label bound]
      by_cases inside : n < 4096
      · have extended : ((labels ++ [(name, n)]).map Prod.fst).Nodup := by
          rw [List.map_append]
          exact List.Nodup.append different (List.nodup_singleton name) (by simpa using bound)
        have := ih extended n
        simp only [List.append_assoc, List.singleton_append] at this
        rw [if_pos inside]
        simpa [labelBindings, inside, Nat.not_le.mpr inside] using this
      · rw [if_neg inside]
        exact .inr (.inr ⟨rfl, (name, n), List.mem_cons_self, Nat.not_lt.mp inside⟩)

/-- The answers on a whole program, by the positions of its label lines. -/
theorem collectLabels_program_cases (ls : List SourceLine) :
    (collectLabels ls 0 [] = .ok (labelBindings ls 0) ∧ (ls.filterMap labelName).Nodup ∧
      ∀ l ∈ labelBindings ls 0, l.2 < 4096) ∨
    (collectLabels ls 0 [] = .error .duplicateLabel ∧ ¬(ls.filterMap labelName).Nodup) ∨
    (collectLabels ls 0 [] = .error .operandOutOfRange ∧ ∃ l ∈ labelBindings ls 0, 4096 ≤ l.2) := by
  simpa only [List.nil_append, map_fst_labelBindings] using
    collectLabels_cases (labels := []) List.nodup_nil ls 0

theorem collectLabels_program_ok {ls : List SourceLine} {labels : Labels}
    (h : collectLabels ls 0 [] = .ok labels) :
    labels = labelBindings ls 0 ∧ (labels.map Prod.fst).Nodup ∧ ∀ l ∈ labels, l.2 < 4096 := by
  obtain ⟨hok, different, inside⟩ | ⟨herror, -⟩ | ⟨herror, -⟩ := collectLabels_program_cases ls
  · cases hok.symm.trans h
    exact ⟨rfl, map_fst_labelBindings ls 0 ▸ different, inside⟩
  · cases herror.symm.trans h
  · cases herror.symm.trans h

/-! ### The obligations -/

/-- Settles O51: pass 2 gives the instruction lines' words, and pass 1 the bindings of the label lines. -/
theorem assembledProgramMatchesItsLines : Obligations.AssembledProgramMatchesItsLines := by
  intro text words labels h
  obtain ⟨pass1, pass2⟩ := assemble_eq_ok_iff.mp h
  have own_words := map_assembleLine_of_assembleLines pass2
  obtain ⟨rfl, different, inside⟩ := collectLabels_program_ok pass1
  refine ⟨?length, fun k tokens w htokens hw => ?word, fun p name hp => ?bound, fun l hl => ?label,
    different, inside⟩
  case length => simpa using (congrArg List.length own_words).symm
  case word => simpa [htokens, hw] using congrArg (·[k]?) own_words
  case bound => exact mem_labelBindings.mpr ⟨p, hp, (Nat.zero_add _).symm⟩
  case label => simpa using mem_labelBindings.mp hl

/-- Settles O56: two lines of one name rule out the first answer of the pass, and a late one the first again;
with few instruction lines no label is late, and with all names different none is a duplicate. -/
theorem badLabelsAbortAssembly : Obligations.BadLabelsAbortAssembly := by
  refine fun text => ⟨fun p q name hpq hp hq few => assemble_eq_error ?duplicate,
    fun p name hp late unique => assemble_eq_error ?late⟩
  case duplicate =>
    obtain ⟨-, different, -⟩ | ⟨herror, -⟩ | ⟨-, l, hl, late⟩ :=
      collectLabels_program_cases (programLines text)
    · exact absurd ((nodup_labelNames_iff _).mp different p q name hp hq) (Nat.ne_of_lt hpq)
    · exact herror
    · obtain ⟨r, -, hr⟩ := mem_labelBindings.mp hl
      have := instructionsBefore_le (programLines text) r
      omega
  case late =>
    have bound : (name, instructionsBefore (programLines text) p) ∈ labelBindings (programLines text) 0 :=
      mem_labelBindings.mpr ⟨p, hp, (Nat.zero_add _).symm⟩
    obtain ⟨-, -, inside⟩ | ⟨-, repeated⟩ | ⟨herror, -⟩ := collectLabels_program_cases (programLines text)
    · exact absurd (inside _ bound) (Nat.not_lt.mpr late)
    · exact absurd ((nodup_labelNames_iff _).mpr unique) repeated
    · exact herror

end Sys2Proof.Machine
end

section
/-! Operand tokens (rules R21, R91, R94; decision D14): decimal digits, register names, and case. -/

namespace Sys2Proof.Machine

/-! ### Decimal digits -/

theorem isDigit_iff_val (c : Char) : c.isDigit = true ↔ '0'.val ≤ c.val ∧ c.val ≤ '9'.val := by
  simp [Char.isDigit]

theorem digitValue_of_isDigit {c : Char} (h : c.isDigit = true) :
    digitValue c = some (c.toNat - '0'.toNat) := if_pos ((isDigit_iff_val c).mp h)

theorem digitValue_le {c : Char} {n : Nat} (h : digitValue c = some n) : n ≤ 9 := by
  simp only [digitValue, Option.ite_none_right_eq_some, Option.some_inj] at h
  obtain ⟨⟨-, hle⟩, rfl⟩ := h
  have : c.toNat ≤ '9'.toNat := hle
  exact Nat.sub_le_sub_right this '0'.toNat

/-- A digit is no letter. -/
theorem toUpper_of_isDigit {c : Char} (h : c.isDigit = true) : c.toUpper = c := by
  obtain ⟨-, hle⟩ := (isDigit_iff_val c).mp h
  refine dif_neg fun letter => ?_
  exact absurd (UInt32.le_trans letter.1 hle) (by decide)

section Digits
variable {t : Text} (h : ∀ c ∈ t, c.isDigit = true)
include h

theorem upperText_of_digits : upperText t = t :=
  (List.map_congr_left fun c hc => toUpper_of_isDigit (h c hc)).trans (List.map_id t)

/-- Digits have the value that the library reads from them. -/
theorem digitsValue_of_digits (acc : Nat) : digitsValue t acc = some (Nat.ofDigitChars 10 t acc) := by
  induction t generalizing acc with
  | nil => rfl
  | cons c cs ih =>
    obtain ⟨hc, hcs⟩ := List.forall_mem_cons.mp h
    rw [digitsValue, digitValue_of_isDigit hc, Option.bind_some, ih hcs, Nat.ofDigitChars_cons]

/-- A register name begins with a letter (rule R21). -/
theorem registerValue_of_digits : registerValue t = none := by
  unfold registerValue
  rw [upperText_of_digits h]
  split
  · exact absurd (h 'R' (by simp)) (by decide)
  · exact absurd (h 'R' (by simp)) (by decide)
  · rfl

end Digits

theorem literalValue_of_ne_nil {t : Text} (h : t ≠ []) : literalValue t = digitsValue t 0 := by
  cases t with
  | nil => exact absurd rfl h
  | cons c cs => rfl

section Numeral
variable (n : Nat)

theorem isDigit_of_mem_numeral : ∀ c ∈ Nat.toDigits 10 n, c.isDigit = true :=
  fun _ => Nat.isDigit_of_mem_toDigits (by decide) (by decide)

theorem digitsValue_numeral : digitsValue (Nat.toDigits 10 n) 0 = some n := by
  rw [digitsValue_of_digits (isDigit_of_mem_numeral n), Nat.ofDigitChars_toDigits (by decide) (by decide)]

theorem literalValue_numeral : literalValue (Nat.toDigits 10 n) = some n := by
  rw [literalValue_of_ne_nil Nat.toDigits_ne_nil, digitsValue_numeral]

end Numeral

/-! ### Register names -/

/-- The index in a register's name is the value of its digits, and at most 15. -/
theorem registerValue_index {t : Text} {n : Nat} (upper : upperText t = t)
    (h : registerValue ('R' :: t) = some n) : digitsValue t 0 = some n ∧ n ≤ 15 := by
  have name : upperText ('R' :: t) = 'R' :: t := congrArg ('R' :: ·) upper
  rw [registerValue, name] at h
  split at h
  · rename_i d hd
    obtain rfl : t = [d] := (List.cons.inj hd).2
    have := digitValue_le h
    exact ⟨by simp [digitsValue, h], by omega⟩
  · rename_i d hd
    obtain rfl : t = ['1', d] := (List.cons.inj hd).2
    obtain ⟨m, hm, hn⟩ := Option.bind_eq_some_iff.mp h
    obtain ⟨hle, hn⟩ := Option.ite_none_right_eq_some.mp hn
    cases hn
    have one : digitValue '1' = some 1 := rfl
    exact ⟨by simp [digitsValue, one, hm], by omega⟩
  · cases h

theorem registerValue_above {i : Nat} (h : 15 < i) : registerValue ('R' :: Nat.toDigits 10 i) = none := by
  refine Option.eq_none_iff_forall_ne_some.mpr fun n hn => ?_
  obtain ⟨hvalue, hle⟩ := registerValue_index (upperText_of_digits (isDigit_of_mem_numeral i)) hn
  cases (digitsValue_numeral i).symm.trans hvalue
  exact absurd hle (Nat.not_le.mpr h)

/-- Decision D14: a leading zero is no register name, but for `R0` itself. -/
theorem registerValue_leading_zero (t : Text) :
    registerValue ('R' :: '0' :: t) = if t = [] then some 0 else none := by
  cases t with
  | nil => rfl
  | cons c cs => simp [registerValue, upperText]

/-! ### The obligations -/

/-- Settles O58: sixteen names, the index that any other name would have, and the digits of a numeral. -/
theorem operandTokensHaveTheirValues : Obligations.OperandTokensHaveTheirValues := by
  refine ⟨?names, fun _ => registerValue_above, registerValue_leading_zero, fun n => ?numeral⟩
  case names => decide
  case numeral => exact ⟨registerValue_of_digits (isDigit_of_mem_numeral n), literalValue_numeral n⟩

/-- Settles O53: both lookups see the upper-case text only. -/
theorem mnemonicsAndRegisterNamesIgnoreCase : Obligations.MnemonicsAndRegisterNamesIgnoreCase := by
  intro t u same
  have upper : upperText t = upperText u := same
  exact ⟨by rw [mnemonicOf, upper, ← mnemonicOf], by rw [registerValue, upper, ← registerValue]⟩

/-- Settles O54: six fixed texts, by evaluating the assembler. -/
theorem assemblerExamplesGiveTheSpecsResults : Obligations.AssemblerExamplesGiveTheSpecsResults :=
  ⟨by decide, by decide, by decide, by decide, by decide, by decide⟩

end Sys2Proof.Machine
end

section
/-! The program formats (rule R86; decision D12): each form of a word read back, and so of a program. -/

namespace Sys2Proof.Machine

/-! ### The text form -/

theorem bitOfChar_charOfBit (b : Bool) : bitOfChar (charOfBit b) = some b := by
  cases b <;> rfl

/-- The characters of the bits below `k`, high bit first, say the word modulo `2 ^ k`. -/
theorem bitsValue_of_bits (w : MemWord) (k acc : Nat) :
    bitsValue ((List.range k).reverse.map fun i => charOfBit (w.getLsbD i)) acc =
      some (acc * 2 ^ k + w.toNat % 2 ^ k) := by
  induction k generalizing acc with
  | zero => simp [bitsValue, Nat.mod_one]
  | succ k ih =>
    have bit : (w.getLsbD k).toNat = w.toNat / 2 ^ k % 2 := Nat.toNat_testBit w.toNat k
    rw [List.range_succ, List.reverse_append, List.reverse_singleton, List.singleton_append, List.map_cons,
      bitsValue, bitOfChar_charOfBit, Option.bind_some, ih, bit, Nat.mod_pow_succ]
    ring_nf

theorem wordOfLine_lineOfWord (w : MemWord) : wordOfLine (lineOfWord w) = some w := by
  have bits : bitsValue (lineOfWord w) 0 = some (0 * 2 ^ 16 + w.toNat % 2 ^ 16) := bitsValue_of_bits w 16 0
  have length : (lineOfWord w).length = 16 := rfl
  rw [wordOfLine, if_pos length, bits, Option.map_some, Nat.zero_mul, Nat.zero_add,
    Nat.mod_eq_of_lt w.isLt, BitVec.ofNat_toNat, BitVec.setWidth_eq]

theorem wordsOfLines_map_lineOfWord (words : List MemWord) :
    wordsOfLines (words.map lineOfWord) = some words := by
  induction words with
  | nil => rfl
  | cons w ws ih => simp [wordsOfLines, wordOfLine_lineOfWord, ih]

/-! ### The packed form -/

theorem wordsOfBytes_bytesOfWords (words : List MemWord) :
    wordsOfBytes (bytesOfWords words) = some words := by
  induction words with
  | nil => rfl
  | cons w ws ih =>
    have halves : w.extractLsb' 8 8 ++ w.extractLsb' 0 8 = w :=
      BitVec.extractLsb'_append_extractLsb' (w := 8) (len := 8)
    simp [wordsOfBytes, bytesOfWords, ih, halves]

theorem append_bytes (hi lo : BitVec 8) : hi ++ lo = BitVec.ofNat 16 (256 * hi.toNat + lo.toNat) := by
  have := hi.isLt
  have := lo.isLt
  apply BitVec.eq_of_toNat_eq
  rw [append_toNat, BitVec.toNat_ofNat]
  omega

/-- Settles O55: both forms word by word, with the bits and the bytes from the high end. -/
theorem programFormatsReadBack : Obligations.ProgramFormatsReadBack := by
  refine ⟨wordsOfLines_map_lineOfWord, wordsOfBytes_bytesOfWords, fun _ => rfl, fun hi lo => ?_⟩
  rw [← append_bytes]
  rfl

end Sys2Proof.Machine
end
